-- ==== Sys2Proof/Word.lean ====
section
/-!
DEFINITION. The port word (10_state.md R15, R16).
-/

namespace Sys2Proof

/-- A 32-bit operand or result port; bit `i` has weight `2^i` (20_memory.md R28). -/
abbrev Word := BitVec 32

end Sys2Proof
end

