-- ==== Sys2Proof/Config.lean ====
section
/-!
DEFINITION. What the hardware fixes once: the two number formats with their derived constants
(00_scope.md R4, R8), and the values the spec leaves free (70_reset_and_hazards.md R116).
-/

namespace Sys2Proof

/-- A FormatSpec, "{exponent_bits, mantissa_bits, bias: unsigned integers}" (R4). -/
structure FormatSpec where
  /-- `E`, exponent_bits. -/
  expBits : Nat
  /-- `M`, mantissa_bits. -/
  manBits : Nat
  /-- `BIAS`. -/
  bias : Nat
  deriving DecidableEq, Repr

/-- The two formats the hardware supports; no other can be selected (R4, R8). -/
inductive Format where
  | half
  | single
  deriving DecidableEq, Repr

/-- The six literals of R4 (fixed, not a parameter: 93_implementation_defined.md ID10). -/
def Format.spec : Format → FormatSpec
  | .half => { expBits := 5, manBits := 10, bias := 15 }
  | .single => { expBits := 8, manBits := 23, bias := 127 }

/-- `E` of R8. -/
def Format.E (fmt : Format) : Nat := fmt.spec.expBits

/-- `M` of R8, also the implicit-bit position. -/
def Format.M (fmt : Format) : Nat := fmt.spec.manBits

/-- `BIAS` of R8. -/
def Format.bias (fmt : Format) : Nat := fmt.spec.bias

/-- The format width `W = 1 + E + M` (R8). -/
def Format.W (fmt : Format) : Nat := 1 + fmt.E + fmt.M

/-- The all-ones exponent field `EMAXF = 2^E - 1` (R8). -/
def Format.emaxf (fmt : Format) : Nat := 2 ^ fmt.E - 1

/-- The unbiased exponent of the smallest normal, `emin = 1 - BIAS` (R8). -/
def Format.emin (fmt : Format) : Int := 1 - (fmt.bias : Int)

/-- The unbiased exponent of the largest finite value, `emax = EMAXF - 1 - BIAS` (R8). -/
def Format.emax (fmt : Format) : Int := (fmt.emaxf : Int) - 1 - fmt.bias

/-- The word on `res` before the inputs have settled: any value (R116, 93_implementation_defined.md
ID4), a free value per input change. DESIGN CHOICE of form only (log 2); safe, nothing constrains it. -/
opaque Config.unsettledRes : Nat → Word

/-- The bit on `inv` before the inputs have settled: any value (R116, ID4), a free value (log 2); safe. -/
opaque Config.unsettledInv : Nat → BitVec 1

end Sys2Proof
end

