-- ==== Sys2Proof/Syntax.lean ====
section
/-!
DEFINITION. The instruction set: rounding modes, one constructor per row of the opcode map
(30_encoding.md R53), transactions (R36), operand fields (R41) and assembly lines (R49).
-/

namespace Sys2Proof

/-- RoundingMode (00_scope.md R5, 10_state.md R23). -/
inductive RoundingMode where
  /-- RTZ, TowardZero. -/
  | towardZero
  /-- RNE, TiesToEven. -/
  | tiesToEven
  /-- RUP, TowardPositive. -/
  | towardPositive
  /-- RDN, TowardNegative. -/
  | towardNegative
  deriving DecidableEq, Repr

/-- FloatClass, derived from a word on demand and never stored (10_state.md R22). -/
inductive FloatClass where
  | zero
  | subnormal
  | normal
  | infinity
  | nan
  deriving DecidableEq, Repr

/-- One constructor per row of R53. The instruction is the control word (20_memory.md R35); the
operand words are on ports `a` and `b`. Bits a row ignores are kept as plain bits, so that encoding
gives back the very word that was decoded. -/
inductive Instr where
  /-- FPASS.H, `0000xx` (R99); `x` = ctrl[1:0], ignored. -/
  | fpassH (x : BitVec 2)
  /-- FPASS.S, `0001xx` (R100); `x` = ctrl[1:0], ignored. -/
  | fpassS (x : BitVec 2)
  /-- FMUL.H, `0010rr` (R79). -/
  | fmulH (rm : RoundingMode)
  /-- FMUL.S, `0011rr` (R80). -/
  | fmulS (rm : RoundingMode)
  /-- FADD.H, `0100rr` (R90). -/
  | faddH (rm : RoundingMode)
  /-- FADD.S, `0101rr` (R91). -/
  | faddS (rm : RoundingMode)
  /-- FSUB.H, `0110rr` (R92). -/
  | fsubH (rm : RoundingMode)
  /-- FSUB.S, `0111rr` (R93). -/
  | fsubS (rm : RoundingMode)
  /-- FDIV.H, `1000rr` (R97). -/
  | fdivH (rm : RoundingMode)
  /-- FDIV.S, `1001rr` (R98). -/
  | fdivS (rm : RoundingMode)
  /-- Reserved, `101xxx` (R101); `x` = ctrl[2:0], ignored. -/
  | reserved101 (x : BitVec 3)
  /-- Reserved, `11xxxx` (R101); `x` = ctrl[3:0], ignored. -/
  | reserved11 (x : BitVec 4)
  deriving DecidableEq, Repr

/-- The three fields of a format word (30_encoding.md R41): sign, exponent field, mantissa field. -/
structure Fields where
  s : Bool
  f : Nat
  t : Nat
  deriving DecidableEq, Repr

/-- A transaction, the tuple (ctrl, a, b) of R36. -/
structure Transaction where
  ctrl : BitVec 6
  a : Word
  b : Word
  deriving DecidableEq, Repr

/-- A transaction with its parts decoded: the instruction of the control word and the fields of the
operand words in the format ctrl[2] selects (R46, R48). -/
structure DecodedTransaction where
  instr : Instr
  a : Fields
  b : Fields
  deriving DecidableEq, Repr

/-- The `<rm>` of an assembly line: a mode's abbreviation, or the digit 0 to 3 of R40 (R49). -/
inductive RmToken where
  | name (rm : RoundingMode)
  | digit (d : Fin 4)
  deriving DecidableEq, Repr

/-- The two-operand operations of the assembly syntax (R49). -/
inductive ArithOp where
  | mul
  | add
  | sub
  | div
  deriving DecidableEq, Repr

/-- An assembly line of R49, `<MNEMONIC> <rm>, <a>, <b>` or `<MNEMONIC> <a>`, as data; the suffix
`.H` or `.S` is the format. -/
inductive AsmLine where
  | arith (op : ArithOp) (fmt : Format) (rm : RmToken) (a b : Word)
  | pass (fmt : Format) (a : Word)
  deriving DecidableEq, Repr

end Sys2Proof
end

