-- ==== Sys2Proof/WellFormed.lean ====
section
/-!
DEFINITION. Checks on data whose type admits more than the spec does: FormatSpecs (00_scope.md R4),
operand fields (30_encoding.md R41, 40_datapath.md R70) and decoded transactions (R36).

`Instr` needs no check of its own: its fields are rounding modes and bit vectors of the very widths
of R53, and every value of them is legal (R40, R47).
-/

namespace Sys2Proof

/-- The invariants of R4: `1 + E + M <= 32` and `bias = 2^(E-1) - 1`. -/
def FormatSpec.wf (p : FormatSpec) : Bool :=
  decide (1 + p.expBits + p.manBits ≤ 32) && decide (p.bias = 2 ^ (p.expBits - 1) - 1)

/-- The precondition of PACK (R70): `0 <= f <= EMAXF` and `0 <= t < 2^M`. -/
def Fields.wf (fmt : Format) (x : Fields) : Bool :=
  decide (x.f ≤ fmt.emaxf) && decide (x.t < 2 ^ fmt.M)

/-- The format an instruction's control word selects, ctrl[2] (R37, R39); a reserved code holds the
bit too and ignores it (R101). -/
def Instr.format : Instr → Format
  | .fpassH _ | .fmulH _ | .faddH _ | .fsubH _ | .fdivH _ => .half
  | .fpassS _ | .fmulS _ | .faddS _ | .fsubS _ | .fdivS _ => .single
  | .reserved101 x => if x.getLsbD 2 then .single else .half
  | .reserved11 x => if x.getLsbD 2 then .single else .half

/-- Both operands' fields lie in the format the instruction selects (R21: no mixed formats). -/
def DecodedTransaction.wf (d : DecodedTransaction) : Bool :=
  d.a.wf d.instr.format && d.b.wf d.instr.format

end Sys2Proof
end

