-- ==== Sys2Proof/Decode.lean ====
section
/-!
DEFINITION. Decoding and encoding of control words (30_encoding.md R36 to R40, R47, R48, R53), of
operand words (R41 to R43, 40_datapath.md R54, R70) and of assembly lines (R49).

Every one of the 64 control words has a meaning (R47), so decoding refuses none of them: the
reserved codes decode to the two reserved rows of R53.
-/

namespace Sys2Proof

/-! ### The control word -/

/-- The rm field's code (R40). -/
def RoundingMode.toBits : RoundingMode → BitVec 2
  | .towardZero => 0
  | .tiesToEven => 1
  | .towardPositive => 2
  | .towardNegative => 3

/-- The mode a value of the rm field selects; every value is legal (R40). -/
def RoundingMode.ofBits (x : BitVec 2) : RoundingMode :=
  match x.toNat with
  | 0 => .towardZero
  | 1 => .tiesToEven
  | 2 => .towardPositive
  | _ => .towardNegative

/-- The fmt field's code (R39). -/
def Format.toBits : Format → BitVec 1
  | .half => 0
  | .single => 1

/-- The format a value of the fmt field selects (R39). -/
def Format.ofBits (x : BitVec 1) : Format :=
  match x.toNat with
  | 0 => .half
  | _ => .single

/-- The control word `{op, fmt, rm}` (R37). -/
def packControl (op : BitVec 3) (fmt : BitVec 1) (rm : BitVec 2) : BitVec 6 := op ++ fmt ++ rm

/-- ctrl[5:3] (R37). -/
def controlOp (c : BitVec 6) : BitVec 3 := c.extractLsb' 3 3

/-- ctrl[2] (R37). -/
def controlFmt (c : BitVec 6) : BitVec 1 := c.extractLsb' 2 1

/-- ctrl[1:0] (R37). -/
def controlRm (c : BitVec 6) : BitVec 2 := c.extractLsb' 0 2

/-- The instruction of a control word: op selects the operation (R38), fmt the format (R39), rm the
rounding mode (R40). Total: op 101, 110 and 111 are the reserved rows (R47, R53). -/
def decode (c : BitVec 6) : Instr :=
  match (controlOp c).toNat, Format.ofBits (controlFmt c) with
  | 0, .half => .fpassH (controlRm c)
  | 0, .single => .fpassS (controlRm c)
  | 1, .half => .fmulH (.ofBits (controlRm c))
  | 1, .single => .fmulS (.ofBits (controlRm c))
  | 2, .half => .faddH (.ofBits (controlRm c))
  | 2, .single => .faddS (.ofBits (controlRm c))
  | 3, .half => .fsubH (.ofBits (controlRm c))
  | 3, .single => .fsubS (.ofBits (controlRm c))
  | 4, .half => .fdivH (.ofBits (controlRm c))
  | 4, .single => .fdivS (.ofBits (controlRm c))
  | 5, _ => .reserved101 (c.extractLsb' 0 3)
  | _, _ => .reserved11 (c.extractLsb' 0 4)

/-- The control word of an instruction, from the ctrl patterns of R53. -/
def encode : Instr → BitVec 6
  | .fpassH x => 0b0000#4 ++ x
  | .fpassS x => 0b0001#4 ++ x
  | .fmulH rm => 0b0010#4 ++ rm.toBits
  | .fmulS rm => 0b0011#4 ++ rm.toBits
  | .faddH rm => 0b0100#4 ++ rm.toBits
  | .faddS rm => 0b0101#4 ++ rm.toBits
  | .fsubH rm => 0b0110#4 ++ rm.toBits
  | .fsubS rm => 0b0111#4 ++ rm.toBits
  | .fdivH rm => 0b1000#4 ++ rm.toBits
  | .fdivS rm => 0b1001#4 ++ rm.toBits
  | .reserved101 x => 0b101#3 ++ x
  | .reserved11 x => 0b11#2 ++ x

/-- The instruction read from a number whose bits are those of the opcode table. The control word is
the low six bits (R37); no port carries a higher bit of the byte that holds it (log 5, DESIGN CHOICE). -/
def decodeTableWord (nbits w : Nat) : Option Instr :=
  some (decode (BitVec.ofNat 6 (w % 2 ^ nbits)))

/-- The mnemonic of a row of R53, as the opcode table spells it. -/
def Instr.mnemonic : Instr → String
  | .fpassH _ => "FPASS.H"
  | .fpassS _ => "FPASS.S"
  | .fmulH _ => "FMUL.H"
  | .fmulS _ => "FMUL.S"
  | .faddH _ => "FADD.H"
  | .faddS _ => "FADD.S"
  | .fsubH _ => "FSUB.H"
  | .fsubS _ => "FSUB.S"
  | .fdivH _ => "FDIV.H"
  | .fdivS _ => "FDIV.S"
  | .reserved101 _ => "(reserved)"
  | .reserved11 _ => "(reserved)"

/-! ### The opcode map as data (R53) -/

/-- The `match`, `mask` and mnemonic columns of R53, one entry per row, in the table's order. -/
def opcodeMap : List (BitVec 6 × BitVec 6 × String) :=
  [ (0x00, 0x3C, "FPASS.H"), (0x04, 0x3C, "FPASS.S"),
    (0x08, 0x3C, "FMUL.H"), (0x0C, 0x3C, "FMUL.S"),
    (0x10, 0x3C, "FADD.H"), (0x14, 0x3C, "FADD.S"),
    (0x18, 0x3C, "FSUB.H"), (0x1C, 0x3C, "FSUB.S"),
    (0x20, 0x3C, "FDIV.H"), (0x24, 0x3C, "FDIV.S"),
    (0x28, 0x38, "(reserved)"), (0x30, 0x30, "(reserved)") ]

/-- "A control word ctrl selects a row when (ctrl & mask) = match" (R53). -/
def rowsSelected (c : BitVec 6) : List (BitVec 6 × BitVec 6 × String) :=
  opcodeMap.filter fun r => c &&& r.2.1 == r.1

/-! ### Operand and result words -/

/-- FIELDS (40_datapath.md R54): `s = w[W-1]`, `f = w[W-2:M]`, `t = w[M-1:0]`; bits [31:W] ignored. -/
def fields (fmt : Format) (w : Word) : Fields :=
  { s := w.toNat.testBit (fmt.W - 1)
    f := w.toNat / 2 ^ fmt.M % 2 ^ fmt.E
    t := w.toNat % 2 ^ fmt.M }

/-- PACK (40_datapath.md R70): `zext_32({s, f[E-1:0], t[M-1:0]})`. -/
def pack (fmt : Format) (s : Bool) (f t : Nat) : Word :=
  BitVec.ofNat 32 (s.toNat * 2 ^ (fmt.W - 1) + f % 2 ^ fmt.E * 2 ^ fmt.M + t % 2 ^ fmt.M)

/-- The operand word of given fields. -/
def packFields (fmt : Format) (x : Fields) : Word := pack fmt x.s x.f x.t

/-- The format word on a port, `w[W-1:0]`, zero-extended (20_memory.md R29). -/
def formatWord (fmt : Format) (w : Word) : Word := BitVec.ofNat 32 (w.toNat % 2 ^ fmt.W)

/-! ### Transactions and assembly -/

/-- The instruction and the operand fields of a transaction (R36, R46). -/
def decodeTransaction (x : Transaction) : DecodedTransaction :=
  { instr := decode x.ctrl
    a := fields (decode x.ctrl).format x.a
    b := fields (decode x.ctrl).format x.b }

/-- The transaction of decoded parts; a half operand's upper port bits are 0. -/
def encodeTransaction (d : DecodedTransaction) : Transaction :=
  { ctrl := encode d.instr
    a := packFields d.instr.format d.a
    b := packFields d.instr.format d.b }

/-- The mode an `<rm>` token names: an abbreviation, or a digit of R40 (R49). -/
def RmToken.mode : RmToken → RoundingMode
  | .name rm => rm
  | .digit d => .ofBits (BitVec.ofFin d)

/-- The instruction of an arithmetic mnemonic at a format (R53). -/
def ArithOp.instr : ArithOp → Format → RoundingMode → Instr
  | .mul, .half, rm => .fmulH rm
  | .mul, .single, rm => .fmulS rm
  | .add, .half, rm => .faddH rm
  | .add, .single, rm => .faddS rm
  | .sub, .half, rm => .fsubH rm
  | .sub, .single, rm => .fsubS rm
  | .div, .half, rm => .fdivH rm
  | .div, .single, rm => .fdivS rm

/-- The transaction an assembly line stands for (R49); an FPASS line assembles with rm = 0, b = 0. -/
def assemble : AsmLine → Transaction
  | .arith op fmt rm a b => { ctrl := encode (op.instr fmt rm.mode), a := a, b := b }
  | .pass .half a => { ctrl := encode (.fpassH 0), a := a, b := 0 }
  | .pass .single a => { ctrl := encode (.fpassS 0), a := a, b := 0 }

end Sys2Proof
end

