-- ==== Sys2Proof/Machine/Operands.lean ====
section
/-!
DEFINITION. Operand words: classification, subnormal normalisation and unpacking (40_datapath.md
R55 to R57), and the numeric value of a word (30_encoding.md R44). FIELDS (R54) and PACK (R70) are
in Decode.lean.
-/

namespace Sys2Proof.Machine

/-- CLASSIFY (R55). -/
def classify (fmt : Format) (w : Word) : FloatClass :=
  let x := fields fmt w
  if x.f = 0 then (if x.t = 0 then .zero else .subnormal)
  else if x.f = fmt.emaxf then (if x.t = 0 then .infinity else .nan)
  else .normal

/-- The informative 3-bit code of a class, visible at no port (10_state.md R22, D23). -/
def classCode : FloatClass → BitVec 3
  | .zero => 0
  | .subnormal => 1
  | .normal => 2
  | .infinity => 3
  | .nan => 4

/-- The sign bit `w[W-1]`. -/
def signBit (fmt : Format) (w : Word) : Bool := (fields fmt w).s

/-- A WorkingValue as UNPACK gives it (10_state.md R24): the operand is `(-1)^s * sig * 2^(e - M)`. -/
structure Unpacked where
  s : Bool
  e : Int
  sig : Nat
  deriving DecidableEq, Repr

/-- `msb(x)`, the index of the highest set bit of `x > 0` (00_scope.md R9). -/
def msb (x : Nat) : Nat := x.log2

/-- SUBNORMAL_NORMALIZE (R56): the exponent and the significand with its leading one at bit `M`.
Precondition `t != 0`. -/
def subnormalNormalize (fmt : Format) (t : Nat) : Int × Nat :=
  let k := fmt.M - msb t
  (1 - (fmt.bias : Int) - k, t <<< k)

/-- UNPACK (R57). Precondition: the class of `w` is Normal or Subnormal. -/
def unpack (fmt : Format) (w : Word) : Unpacked :=
  let x := fields fmt w
  if x.f ≠ 0 then { s := x.s, e := (x.f : Int) - fmt.bias, sig := 2 ^ fmt.M + x.t }
  else
    let n := subnormalNormalize fmt x.t
    { s := x.s, e := n.1, sig := n.2 }

/-- A class that reaches the kernels: Normal or Subnormal, finite and nonzero. -/
def isFiniteNonzero (c : FloatClass) : Bool :=
  match c with
  | .normal | .subnormal => true
  | .zero | .infinity | .nan => false

/-- The magnitude of a finite word (30_encoding.md R44): `t * 2^(1-BIAS-M)` where `f = 0`,
`(2^M + t) * 2^(f-BIAS-M)` elsewhere. -/
def magnitude (fmt : Format) (w : Word) : ℚ :=
  let x := fields fmt w
  if x.f = 0 then (x.t : ℚ) * 2 ^ (1 - (fmt.bias : Int) - fmt.M)
  else ((2 ^ fmt.M + x.t : Nat) : ℚ) * 2 ^ ((x.f : Int) - fmt.bias - fmt.M)

/-- `(-1)^s`. -/
def signFactor (s : Bool) : ℚ := if s then -1 else 1

/-- The value of a finite word as a rational, `(-1)^s` times its magnitude (R44). -/
def rationalValue (fmt : Format) (w : Word) : ℚ := signFactor (signBit fmt w) * magnitude fmt w

/-- The numeric value of any word, by class (R44). -/
inductive NumericValue where
  | zero (s : Bool)
  | finite (q : ℚ)
  | infinity (s : Bool)
  | notANumber
  deriving DecidableEq, Repr

/-- R44's table. -/
def numericValue (fmt : Format) (w : Word) : NumericValue :=
  match classify fmt w with
  | .zero => .zero (signBit fmt w)
  | .subnormal => .finite (rationalValue fmt w)
  | .normal => .finite (rationalValue fmt w)
  | .infinity => .infinity (signBit fmt w)
  | .nan => .notANumber

end Sys2Proof.Machine
end

