-- ==== Sys2Proof/Machine/Flags.lean ====
section
/-!
DEFINITION. There are no status flags, condition codes or predicates (10_state.md R19) and no
operation reads or writes one. What this file computes is the half-bit and sticky-bit of the datapath
(40_datapath.md R65, R66), and the IEEE-754 conditions that show in the result word only
(60_exceptions.md R105).
-/

namespace Sys2Proof.Machine

/-- SHR_JAM (R65): shift right by `d`; the half-bit is the highest bit shifted out, the sticky-bit the
OR of all below it with the old half-bit and sticky-bit. -/
def shrJam (m : Nat) (h st : Bool) (d : Nat) : Nat × Bool × Bool :=
  if d = 0 then (m, h, st)
  else (m >>> d, m.testBit (d - 1), st || h || decide (m % 2 ^ (d - 1) ≠ 0))

/-- JAM (R66): shift right by `d`, every bit shifted out ORed into bit 0. -/
def jam (x d : Nat) : Nat := (x >>> d) ||| (decide (x % 2 ^ d ≠ 0)).toNat

/-- "invalid operation" of a multiply (R105): a NaN operand or Inf × 0. -/
def mulInvalid (ca cb : FloatClass) : Bool :=
  ca == .nan || cb == .nan || (ca == .infinity && cb == .zero) || (ca == .zero && cb == .infinity)

/-- "invalid operation" of an addition, on effective signs (R105): a NaN operand or opposing infinities. -/
def addInvalid (ca cb : FloatClass) (sa sb : Bool) : Bool :=
  ca == .nan || cb == .nan || (ca == .infinity && cb == .infinity && sa != sb)

/-- "invalid operation" of a division (R105): a NaN operand, 0/0 or ∞/∞. -/
def divInvalid (ca cb : FloatClass) : Bool :=
  ca == .nan || cb == .nan || (ca == .zero && cb == .zero) || (ca == .infinity && cb == .infinity)

/-- "division by zero" (R105): a finite nonzero dividend over zero. -/
def divByZero (ca cb : FloatClass) : Bool := isFiniteNonzero ca && cb == .zero

end Sys2Proof.Machine
end

