-- ==== Sys2Proof/Machine/Special.lean ====
section
/-!
DEFINITION. The special-value factory (40_datapath.md R58 to R61) and the overflow policy (R62).
-/

namespace Sys2Proof.Machine

/-- MAKE_NAN (R58), the parameter CANON_NAN of 93_implementation_defined.md ID1 at its default: the
one definition every NaN result goes through (log 6). -/
def makeNan (fmt : Format) : Word := pack fmt false fmt.emaxf (2 ^ fmt.M - 2)

/-- MAKE_INF (R59). -/
def makeInf (fmt : Format) (s : Bool) : Word := pack fmt s fmt.emaxf 0

/-- MAKE_MAX_FINITE (R60). -/
def makeMaxFinite (fmt : Format) (s : Bool) : Word := pack fmt s (fmt.emaxf - 1) (2 ^ fmt.M - 1)

/-- MAKE_ZERO (R61). -/
def makeZero (fmt : Format) (s : Bool) : Word := pack fmt s 0 0

/-- OVERFLOW_RESULT (R62); `s` is the sign of the exact result. -/
def overflowResult (fmt : Format) (s : Bool) (rm : RoundingMode) : Word :=
  match rm, s with
  | .towardZero, s => makeMaxFinite fmt s
  | .tiesToEven, s => makeInf fmt s
  | .towardPositive, false => makeInf fmt false
  | .towardPositive, true => makeMaxFinite fmt true
  | .towardNegative, true => makeInf fmt true
  | .towardNegative, false => makeMaxFinite fmt false

end Sys2Proof.Machine
end

