-- ==== Sys2Proof/Machine/Finish.lean ====
section
/-!
DEFINITION. The rounding engine (40_datapath.md R63, R64), left normalisation (R67), the normalised
intermediate (R68) and the finishing stage (R69).
-/

namespace Sys2Proof.Machine

/-- ROUND_INC (R63): whether the candidate significand `m` is incremented. -/
def roundInc (m : Nat) (s h st : Bool) (rm : RoundingMode) : Bool :=
  match rm with
  | .towardZero => false
  | .tiesToEven => (h && st) || (h && m.testBit 0)
  | .towardPositive => !s && (h || st)
  | .towardNegative => s && (h || st)

/-- ROUND (R63). -/
def round (m : Nat) (s h st : Bool) (rm : RoundingMode) : Nat := m + (roundInc m s h st rm).toNat

/-- LEFT_NORMALIZE (R67). Precondition `0 < D < 2^(P+1)`. -/
def leftNormalize (D : Nat) (be : Int) (P : Nat) : Nat × Int :=
  let z := P - msb D
  (D <<< z, be - z)

/-- A normalised intermediate (s, be, m, h, st) (R68). -/
structure Intermediate where
  s : Bool
  be : Int
  m : Nat
  h : Bool
  st : Bool
  deriving DecidableEq, Repr

/-- FINISH step 2 (R69): at `be <= 0` move to the fixed subnormal quantum. -/
def clampUnderflow (i : Intermediate) : Intermediate :=
  if i.be ≤ 0 then
    let j := shrJam i.m i.h i.st (1 - i.be).toNat
    { s := i.s, be := 0, m := j.1, h := j.2.1, st := j.2.2 }
  else i

/-- FINISH step 4 (R69, R64): the biased exponent and significand after a rounding carry. -/
def renormalise (fmt : Format) (be : Int) (m : Nat) : Int × Nat :=
  if be = 0 then (if m = 2 ^ fmt.M then (1, m) else (be, m))
  else if m = 2 ^ (fmt.M + 1) then (be + 1, 2 ^ fmt.M)
  else (be, m)

/-- FINISH (R69). Precondition: R68. -/
def finish (fmt : Format) (i : Intermediate) (rm : RoundingMode) : Word :=
  if (fmt.emaxf : Int) ≤ i.be then overflowResult fmt i.s rm
  else
    let c := clampUnderflow i
    let r := renormalise fmt c.be (round c.m c.s c.h c.st rm)
    if (fmt.emaxf : Int) ≤ r.1 then overflowResult fmt i.s rm
    else pack fmt i.s r.1.toNat (r.2 % 2 ^ fmt.M)

end Sys2Proof.Machine
end

