-- ==== Sys2Proof/Machine/State.lean ====
section
/-!
DEFINITION. The machine's state: the ports of 10_state.md R15 and R16. The FP core stores nothing
(R13, R17 to R20, R25 to R27), so the ports, held by whatever drives them, are all a transaction
reads and writes. Three plain-data fields stand beside them for the spec's "any value" before the
inputs have settled (70_reset_and_hazards.md R116, R119).
-/

namespace Sys2Proof.Machine

/-- The ports, and whether the outputs are valid. -/
structure State where
  /-- Input port `op`, the operator tag (R15, R38). -/
  op : BitVec 3
  /-- Input port `fmt`, the FormatSpec selector (R15, R39). -/
  fmt : BitVec 1
  /-- Input port `rm`, the rounding mode (R15, R40). -/
  rm : BitVec 2
  /-- Input port `a`, the first operand word (R15). -/
  a : Word
  /-- Input port `b`, the second operand word (R15). -/
  b : Word
  /-- Output port `res`, the result word (R16). -/
  res : Word
  /-- Output port `inv`, 1 exactly when `op` holds a reserved code (R16). -/
  inv : BitVec 1
  /-- THE MODEL'S OWN: the inputs have been stable for the settling time, so that the outputs are
  valid (R119). DESIGN CHOICE, log 3. -/
  settled : Bool
  /-- THE MODEL'S OWN: the index of the next free value for unsettled outputs. DESIGN CHOICE, log 3. -/
  unsettledCount : Nat
  deriving DecidableEq, Repr

/-- No transaction raises an exception, trap, fault or signal of any kind, and a transaction function
"is therefore total and never returns an error" (60_exceptions.md R103): there is no fault to name.
Safe (log 8). -/
inductive Fault where
  deriving DecidableEq, Repr

/-- The refusals; no arm of `exec` answers with one. -/
inductive Refusal where
  /-- Raised by an arm of `exec` whose instruction has no meaning yet: there is none. Safe. -/
  | notModelled (mnemonic : String)
  deriving DecidableEq, Repr

/-- The ports after power is applied, before a host has driven them. The FP core has no reset input
and nothing to reset (R115). Inputs: the values no host has driven yet, zero (DESIGN CHOICE, unsafe,
log 1). Outputs: any value (R116), free values (log 2), not valid until a transaction settles. -/
def State.reset : State :=
  { op := 0, fmt := 0, rm := 0, a := 0, b := 0
    res := Config.unsettledRes 0
    inv := Config.unsettledInv 0
    settled := false
    unsettledCount := 1 }

end Sys2Proof.Machine
end

