-- ==== Sys2Proof/Machine/Ops.lean ====
section
/-!
DEFINITION. The named operations over the ports: what a host does to the inputs, what a transaction
reads, and how it drives the outputs. There is no memory (20_memory.md R27) and no register
(10_state.md R17) to operate on. There is no exception to take and none to return from: the FP core
"has no trap entry and no trap return" (60_exceptions.md R103, R107), so no operation here does either.
-/

namespace Sys2Proof.Machine

/-- The control word on the control ports, sampled with the operands (30_encoding.md R37,
20_memory.md R35). -/
def sampleControl (s : State) : BitVec 6 := packControl s.op s.fmt s.rm

/-- `a[W-1:0]` of the selected format (20_memory.md R29). -/
def operandA (fmt : Format) (s : State) : Word := formatWord fmt s.a

/-- `b[W-1:0]` of the selected format (20_memory.md R29). -/
def operandB (fmt : Format) (s : State) : Word := formatWord fmt s.b

/-- `res <- r ; inv <- i`: a transaction drives the outputs, which are then valid (20_memory.md R31,
70_reset_and_hazards.md R119). The input ports are never changed (42_add_subtract.md R81). -/
def driveOutputs (r : Word) (i : BitVec 1) (s : State) : State :=
  { s with res := r, inv := i, settled := true }

/-- The host puts values on the input ports. The outputs stay valid "until any input next changes"
(R119); after a change they may be any value (R116, 93_implementation_defined.md ID4): free values,
not valid until the next transaction settles (log 2, log 12). -/
def State.present (op : BitVec 3) (fmt : BitVec 1) (rm : BitVec 2) (a b : Word) (s : State) : State :=
  if op = s.op ∧ fmt = s.fmt ∧ rm = s.rm ∧ a = s.a ∧ b = s.b then s
  else
    { op := op, fmt := fmt, rm := rm, a := a, b := b
      res := Config.unsettledRes s.unsettledCount
      inv := Config.unsettledInv s.unsettledCount
      settled := false
      unsettledCount := s.unsettledCount + 1 }

/-- The host presents a control word and leaves the operand ports as they are. -/
def presentControl (c : BitVec 6) (s : State) : State :=
  s.present (controlOp c) (controlFmt c) (controlRm c) s.a s.b

/-- The host presents a whole transaction (30_encoding.md R36). -/
def presentTransaction (x : Transaction) (s : State) : State :=
  s.present (controlOp x.ctrl) (controlFmt x.ctrl) (controlRm x.ctrl) x.a x.b

end Sys2Proof.Machine
end

