-- ==== Sys2Proof/Machine/AddSubtract.lean ====
section
/-!
DEFINITION. Add and subtract (42_add_subtract.md): special operands R82, sign flip R81, dispatch R83,
magnitude adder R84, magnitude subtractor R85 to R87, the permitted shortcut R88, and the instructions
FADD.H (R90), FADD.S (R91), FSUB.H (R92) and FSUB.S (R93).
-/

namespace Sys2Proof.Machine

/-- The operand of larger exponent first; an adder needs no more (R84). -/
def alignOrder (x y : Unpacked) : Unpacked × Unpacked := if x.e < y.e then (y, x) else (x, y)

/-- MAG_ADD up to FINISH (R84): two magnitudes of one sign `s`. -/
def addIntermediate (fmt : Format) (s : Bool) (x y : Unpacked) : Intermediate :=
  let (l, r) := alignOrder x y
  let j := shrJam r.sig false false (l.e - r.e).toNat
  let S := l.sig + j.1
  let be := l.e + fmt.bias
  if 2 ^ (fmt.M + 1) ≤ S then
    let k := shrJam S j.2.1 j.2.2 1
    { s := s, be := be + 1, m := k.1, h := k.2.1, st := k.2.2 }
  else { s := s, be := be, m := S, h := j.2.1, st := j.2.2 }

/-- MAG_ADD (R84). -/
def magAdd (fmt : Format) (rm : RoundingMode) (s : Bool) (x y : Unpacked) : Word :=
  finish fmt (addIntermediate fmt s x y) rm

/-- ORDER (R85): the larger magnitude first, the first operand where they are equal. -/
def order (x y : Unpacked) : Unpacked × Unpacked :=
  if y.e < x.e ∨ (x.e = y.e ∧ y.sig ≤ x.sig) then (x, y) else (y, x)

/-- The difference of R87 before left normalisation: three extra bits, the subtrahend jammed. -/
def alignedDifference (l r : Unpacked) : Nat := (l.sig <<< 3) - jam (r.sig <<< 3) (l.e - r.e).toNat

/-- MAG_SUB from alignment up to FINISH (R87), `l` the larger magnitude. -/
def subIntermediate (fmt : Format) (l r : Unpacked) : Intermediate :=
  let n := leftNormalize (alignedDifference l r) (l.e + fmt.bias) (fmt.M + 3)
  { s := l.s, be := n.2, m := n.1 >>> 3, h := n.1.testBit 2, st := decide (n.1 % 4 ≠ 0) }

/-- The sign of an exact zero sum: +0, but -0 under TowardNegative (R82, R86). -/
def zeroSumSign (rm : RoundingMode) : Bool := rm == .towardNegative

/-- MAG_SUB (R85 to R87). -/
def magSub (fmt : Format) (rm : RoundingMode) (x y : Unpacked) : Word :=
  let (l, r) := order x y
  if l.e = r.e ∧ l.sig = r.sig then makeZero fmt (zeroSumSign rm)
  else finish fmt (subIntermediate fmt l r) rm

/-- The "a minus one ULP" shortcut a realisation may take where `d >= M+3` (R88): the next smaller
representable magnitude, `h = 1`, `st = 1`, the larger operand's sign. No meaning uses it. -/
def shortcutIntermediate (fmt : Format) (l : Unpacked) : Intermediate :=
  if l.sig = 2 ^ fmt.M then
    { s := l.s, be := l.e + fmt.bias - 1, m := 2 ^ (fmt.M + 1) - 1, h := true, st := true }
  else { s := l.s, be := l.e + fmt.bias, m := l.sig - 1, h := true, st := true }

/-- ADD_KERNEL (R83), on two finite nonzero words. -/
def addKernel (fmt : Format) (rm : RoundingMode) (a b : Word) : Word :=
  let x := unpack fmt a
  let y := unpack fmt b
  if x.s = y.s then magAdd fmt rm x.s x y else magSub fmt rm x y

/-- FADD (R82) on format words; a zero operand gives the other word unchanged. -/
def fadd (fmt : Format) (rm : RoundingMode) (a b : Word) : Word :=
  let sa := signBit fmt a
  let sb := signBit fmt b
  match classify fmt a, classify fmt b with
  | .nan, _ => makeNan fmt
  | _, .nan => makeNan fmt
  | .infinity, .infinity => if sa ≠ sb then makeNan fmt else makeInf fmt sa
  | .infinity, _ => makeInf fmt sa
  | _, .infinity => makeInf fmt sb
  | .zero, .zero => if sa = sb then makeZero fmt sa else makeZero fmt (zeroSumSign rm)
  | .zero, _ => b
  | _, .zero => a
  | _, _ => addKernel fmt rm a b

/-- The word with its sign bit inverted, `b xor 2^(W-1)` (R81). -/
def flipSign (fmt : Format) (b : Word) : Word := b ^^^ BitVec.ofNat 32 (2 ^ (fmt.W - 1))

/-- FSUB (R81). -/
def fsub (fmt : Format) (rm : RoundingMode) (a b : Word) : Word := fadd fmt rm a (flipSign fmt b)

/-- FADD.H (R90). -/
def execFaddH (rm : RoundingMode) (s : State) : Host.Outcome State Fault Refusal :=
  .next (driveOutputs (fadd .half rm (operandA .half s) (operandB .half s)) 0 s)

/-- FADD.S (R91). -/
def execFaddS (rm : RoundingMode) (s : State) : Host.Outcome State Fault Refusal :=
  .next (driveOutputs (fadd .single rm (operandA .single s) (operandB .single s)) 0 s)

/-- FSUB.H (R92). -/
def execFsubH (rm : RoundingMode) (s : State) : Host.Outcome State Fault Refusal :=
  .next (driveOutputs (fsub .half rm (operandA .half s) (operandB .half s)) 0 s)

/-- FSUB.S (R93). -/
def execFsubS (rm : RoundingMode) (s : State) : Host.Outcome State Fault Refusal :=
  .next (driveOutputs (fsub .single rm (operandA .single s) (operandB .single s)) 0 s)

end Sys2Proof.Machine
end

