-- ==== Sys2Proof/Machine/Divide.lean ====
section
/-!
DEFINITION. Divide (43_divide.md): special operands R94, the quotient datapath R95 (with the carry
handling of R96, which is FINISH's), and the instructions FDIV.H (R97) and FDIV.S (R98).
-/

namespace Sys2Proof.Machine

/-- The quotient of the significands and its normalised intermediate (R95). -/
def divIntermediate (fmt : Format) (x y : Unpacked) : Intermediate :=
  let N := x.sig <<< (fmt.M + 3)
  let Q := N / y.sig
  let R := N % y.sig
  let be := x.e - y.e + fmt.bias
  if 2 ^ (fmt.M + 3) ≤ Q then
    { s := x.s ^^ y.s, be := be, m := Q >>> 3, h := Q.testBit 2
      st := decide (Q % 4 ≠ 0) || decide (R ≠ 0) }
  else
    { s := x.s ^^ y.s, be := be - 1, m := Q >>> 2, h := Q.testBit 1
      st := Q.testBit 0 || decide (R ≠ 0) }

/-- DIV_KERNEL (R95), on two finite nonzero words. -/
def divKernel (fmt : Format) (rm : RoundingMode) (a b : Word) : Word :=
  finish fmt (divIntermediate fmt (unpack fmt a) (unpack fmt b)) rm

/-- FDIV (R94). -/
def fdiv (fmt : Format) (rm : RoundingMode) (a b : Word) : Word :=
  let s := signBit fmt a ^^ signBit fmt b
  match classify fmt a, classify fmt b with
  | .nan, _ => makeNan fmt
  | _, .nan => makeNan fmt
  | .zero, .zero => makeNan fmt
  | .infinity, .infinity => makeNan fmt
  | _, .zero => makeInf fmt s
  | .infinity, _ => makeInf fmt s
  | .zero, _ => makeZero fmt s
  | _, .infinity => makeZero fmt s
  | _, _ => divKernel fmt rm a b

/-- FDIV.H (R97). -/
def execFdivH (rm : RoundingMode) (s : State) : Host.Outcome State Fault Refusal :=
  .next (driveOutputs (fdiv .half rm (operandA .half s) (operandB .half s)) 0 s)

/-- FDIV.S (R98). -/
def execFdivS (rm : RoundingMode) (s : State) : Host.Outcome State Fault Refusal :=
  .next (driveOutputs (fdiv .single rm (operandA .single s) (operandB .single s)) 0 s)

end Sys2Proof.Machine
end

