-- ==== Sys2Proof/Machine/Multiply.lean ====
section
/-!
DEFINITION. Multiply (41_multiply.md): special operands R76, the product datapath R77, and the
instructions FMUL.H (R79) and FMUL.S (R80).
-/

namespace Sys2Proof.Machine

/-- The product of the significands and its normalised intermediate (R77). -/
def mulIntermediate (fmt : Format) (x y : Unpacked) : Intermediate :=
  let P := x.sig * y.sig
  let be := x.e + y.e + fmt.bias
  if 2 ^ (2 * fmt.M + 1) ≤ P then
    { s := x.s ^^ y.s, be := be + 1, m := P >>> (fmt.M + 1), h := P.testBit fmt.M
      st := decide (P % 2 ^ fmt.M ≠ 0) }
  else
    { s := x.s ^^ y.s, be := be, m := P >>> fmt.M, h := P.testBit (fmt.M - 1)
      st := decide (P % 2 ^ (fmt.M - 1) ≠ 0) }

/-- MUL_KERNEL (R77), on two finite nonzero words. -/
def mulKernel (fmt : Format) (rm : RoundingMode) (a b : Word) : Word :=
  finish fmt (mulIntermediate fmt (unpack fmt a) (unpack fmt b)) rm

/-- FMUL (R76, signs R78). -/
def fmul (fmt : Format) (rm : RoundingMode) (a b : Word) : Word :=
  let s := signBit fmt a ^^ signBit fmt b
  match classify fmt a, classify fmt b with
  | .nan, _ => makeNan fmt
  | _, .nan => makeNan fmt
  | .infinity, .zero => makeNan fmt
  | .zero, .infinity => makeNan fmt
  | .infinity, _ => makeInf fmt s
  | _, .infinity => makeInf fmt s
  | .zero, _ => makeZero fmt s
  | _, .zero => makeZero fmt s
  | _, _ => mulKernel fmt rm a b

/-- FMUL.H (R79). -/
def execFmulH (rm : RoundingMode) (s : State) : Host.Outcome State Fault Refusal :=
  .next (driveOutputs (fmul .half rm (operandA .half s) (operandB .half s)) 0 s)

/-- FMUL.S (R80). -/
def execFmulS (rm : RoundingMode) (s : State) : Host.Outcome State Fault Refusal :=
  .next (driveOutputs (fmul .single rm (operandA .single s) (operandB .single s)) 0 s)

end Sys2Proof.Machine
end

