-- ==== Sys2Proof/Machine/PassReserved.lean ====
section
/-!
DEFINITION. Pass-through FPASS.H (44_pass_through.md R99) and FPASS.S (R100), and the two reserved rows
(R101), whose outcome is defined: no refusal and no fault (60_exceptions.md R103,
93_implementation_defined.md ID2).
-/

namespace Sys2Proof.Machine

/-- The outcome of every reserved code (R101): `res <- 0 ; inv <- 1`. -/
def reservedOutcome (s : State) : State := driveOutputs 0 1 s

/-- FPASS.H (R99): the half word bit for bit; rm, `b` and `a[31:16]` ignored. -/
def execFpassH (_x : BitVec 2) (s : State) : Host.Outcome State Fault Refusal :=
  .next (driveOutputs (operandA .half s) 0 s)

/-- FPASS.S (R100): the single word bit for bit; rm and `b` ignored. -/
def execFpassS (_x : BitVec 2) (s : State) : Host.Outcome State Fault Refusal :=
  .next (driveOutputs (operandA .single s) 0 s)

/-- Row 101xxx (R101). -/
def execReserved101 (_x : BitVec 3) (s : State) : Host.Outcome State Fault Refusal :=
  .next (reservedOutcome s)

/-- Row 11xxxx (R101). -/
def execReserved11 (_x : BitVec 4) (s : State) : Host.Outcome State Fault Refusal :=
  .next (reservedOutcome s)

end Sys2Proof.Machine
end

