-- ==== Sys2Proof/Machine/Dispatch.lean ====
section
/-!
DEFINITION. One arm per row of the opcode map (30_encoding.md R53).
-/

namespace Sys2Proof.Machine

def exec (i : Instr) (s : State) : Host.Outcome State Fault Refusal :=
  match i with
  | .fpassH x => Sys2Proof.Machine.execFpassH x s
  | .fpassS x => Sys2Proof.Machine.execFpassS x s
  | .fmulH rm => Sys2Proof.Machine.execFmulH rm s
  | .fmulS rm => Sys2Proof.Machine.execFmulS rm s
  | .faddH rm => Sys2Proof.Machine.execFaddH rm s
  | .faddS rm => Sys2Proof.Machine.execFaddS rm s
  | .fsubH rm => Sys2Proof.Machine.execFsubH rm s
  | .fsubS rm => Sys2Proof.Machine.execFsubS rm s
  | .fdivH rm => Sys2Proof.Machine.execFdivH rm s
  | .fdivS rm => Sys2Proof.Machine.execFdivS rm s
  | .reserved101 x => Sys2Proof.Machine.execReserved101 x s
  | .reserved11 x => Sys2Proof.Machine.execReserved11 x s

end Sys2Proof.Machine
end

