-- ==== Sys2Proof/Machine/Step.lean ====
section
/-!
DEFINITION. One step: one transaction on the values the input ports hold (10_state.md R14,
20_memory.md R31). The core fetches nothing (R18, R35): the step samples the control ports.
-/

namespace Sys2Proof.Machine

/-- Evaluate the transaction on the input ports: sample the control word, decode it, run it. -/
def step (s : State) : Host.Outcome State Fault Refusal :=
  exec (decode (sampleControl s)) s

/-- The state whose next step runs the instruction of a table word: the word's six bits presented on
op, fmt and rm. It stands for the host that presents a transaction (R18, log 4). -/
def State.withFetchWord (s : State) (nbits w : Nat) : State :=
  presentControl (BitVec.ofNat 6 (w % 2 ^ nbits)) s

end Sys2Proof.Machine
end

