-- ==== Sys2Proof/Machine/FpCore.lean ====
section
/-!
DEFINITION. The top-level function of the ports, FPCORE (10_state.md R13, 44_pass_through.md R102),
written from R102 and not from the decoder: `step` is a second way to the same outputs.
-/

namespace Sys2Proof.Machine

/-- FPCORE (R102): `(res, inv)` as a function of the five input ports. -/
def fpcore (op : BitVec 3) (fmt : BitVec 1) (rm : BitVec 2) (a b : Word) : Word × BitVec 1 :=
  let F := Format.ofBits fmt
  let mode := RoundingMode.ofBits rm
  let x := formatWord F a
  let y := formatWord F b
  match op.toNat with
  | 0 => (x, 0)
  | 1 => (fmul F mode x y, 0)
  | 2 => (fadd F mode x y, 0)
  | 3 => (fsub F mode x y, 0)
  | 4 => (fdiv F mode x y, 0)
  | _ => (0, 1)

end Sys2Proof.Machine
end

