-- ==== Sys2Proof/Machine/RoundExact.lean ====
section
/-!
DEFINITION. The normative value of a rounded result (40_datapath.md R71) and the contract of a
normalised intermediate (R68), over the rationals. No meaning calls these: the datapath is the clear
pseudocode, and statements say that it computes R71 (R72).
-/

namespace Sys2Proof.Machine

/-- The weight `q = 2^(e - M)` of the last retained bit. -/
def quantum (fmt : Format) (e : Int) : ℚ := 2 ^ (e - fmt.M)

/-- The exponent R71 rounds at: the `e` with `2^e <= x < 2^(e+1)`, not below `1 - BIAS`. -/
def roundExponent (fmt : Format) (x : ℚ) : Int := max (Int.log 2 x) (1 - (fmt.bias : Int))

/-- ROUND_EXACT (R71). Precondition `x > 0`; `s` is the sign of the exact result. -/
def roundExact (fmt : Format) (s : Bool) (x : ℚ) (rm : RoundingMode) : Word :=
  let e := roundExponent fmt x
  let y := x / quantum fmt e
  let n := ⌊y⌋.toNat
  let r := y - n
  let h := decide (1 / 2 ≤ r)
  let st := decide (r ≠ 0) && decide (r ≠ 1 / 2)
  let n := n + (roundInc n s h st rm).toNat
  let c := if n = 2 ^ (fmt.M + 1) then (2 ^ fmt.M, e + 1) else (n, e)
  let ft := if 2 ^ fmt.M ≤ c.1 then ((c.2 + fmt.bias).toNat, c.1 - 2 ^ fmt.M) else (0, c.1)
  if fmt.emaxf ≤ ft.1 then overflowResult fmt s rm else pack fmt s ft.1 ft.2

/-- The contract of R68: `2^M <= m < 2^(M+1)` and `x = (m + h/2 + δ) * 2^(be - BIAS - M)` with `δ = 0`
where `st = 0` and `0 < δ < 1/2` where `st = 1`. -/
def Intermediate.Represents (i : Intermediate) (fmt : Format) (x : ℚ) : Prop :=
  2 ^ fmt.M ≤ i.m ∧ i.m < 2 ^ (fmt.M + 1) ∧
    ∃ δ : ℚ, x = ((i.m : ℚ) + (if i.h then 1 / 2 else 0) + δ) * 2 ^ (i.be - fmt.bias - fmt.M) ∧
      (i.st = false → δ = 0) ∧ (i.st = true → 0 < δ ∧ δ < 1 / 2)

end Sys2Proof.Machine
end

