-- ==== Sys2Proof/Safety.lean ====
section
/-!
DEFINITION. The terms statements are made in. A run is safe when the host samples `res` and `inv`
only in states whose outputs are valid (70_reset_and_hazards.md R119); the invariants say what the
outputs then hold.
-/

namespace Sys2Proof.Machine

/-- Valid outputs are FPCORE of the input ports (R116, R119). -/
abbrev OutputsValid (s : State) : Prop :=
  s.settled = true → (s.res, s.inv) = fpcore s.op s.fmt s.rm s.a s.b

/-- What valid outputs look like whatever the operands: `inv` marks exactly the reserved codes
(10_state.md R16), a reserved code gives 0 (44_pass_through.md R101), a half result is zero-extended
(20_memory.md R29), and the only NaN of a multiply, add, subtract or divide is the canonical one
(40_datapath.md R58). -/
abbrev OutputsShaped (s : State) : Prop :=
  s.settled = true →
    (s.inv = 1 ↔ 5 ≤ s.op.toNat) ∧ (s.inv = 1 → s.res = 0) ∧
      (s.fmt = 0 → s.res.toNat < 2 ^ 16) ∧
        (1 ≤ s.op.toNat → s.op.toNat ≤ 4 → classify (.ofBits s.fmt) s.res = .nan →
          s.res = makeNan (.ofBits s.fmt))

/-- Both operand words reach the kernels: Normal or Subnormal (41_multiply.md R77 and its kin). -/
abbrev BothFinite (fmt : Format) (s : State) : Prop :=
  isFiniteNonzero (classify fmt s.a) = true ∧ isFiniteNonzero (classify fmt s.b) = true

/-- Two states hold the same values on every input port. -/
abbrev SameInputs (s t : State) : Prop :=
  s.op = t.op ∧ s.fmt = t.fmt ∧ s.rm = t.rm ∧ s.a = t.a ∧ s.b = t.b

/-- The significand is normalised, `2^M <= sig < 2^(M+1)` (40_datapath.md R57). -/
abbrev Unpacked.Normalised (u : Unpacked) (fmt : Format) : Prop :=
  2 ^ fmt.M ≤ u.sig ∧ u.sig < 2 ^ (fmt.M + 1)

/-- The magnitude `sig * 2^(e - M)` of an unpacked operand (R57). -/
def Unpacked.magnitude (u : Unpacked) (fmt : Format) : ℚ := (u.sig : ℚ) * 2 ^ (u.e - fmt.M)

end Sys2Proof.Machine
end

