-- ==== Sys2Proof/Certificates/Slice0/Obligations.lean ====
section
/-!
DEFINITION. The statements for the provers. Rules are those of spec/; a docstring that says "model's
choice" names the assumption-log entry it rests on.
-/

open Sys2Proof Sys2Proof.Machine

/-! ### Formats, encoding, decoding -/

/-- R4: the two formats' literals, and its two invariants for both. -/
def Obligations.FormatsHaveTheStatedParameters : Prop :=
  Format.half.spec = ⟨5, 10, 15⟩ ∧ Format.single.spec = ⟨8, 23, 127⟩ ∧
    ∀ fmt : Format, fmt.spec.wf = true

/-- R37: the places of op, fmt and rm in the control word, and the fields read back from it. -/
def Obligations.ControlWordIsOpFmtRm : Prop :=
  (∀ (op : BitVec 3) (fmt : BitVec 1) (rm : BitVec 2),
      (packControl op fmt rm).toNat = op.toNat * 8 + fmt.toNat * 4 + rm.toNat) ∧
    ∀ c : BitVec 6, (controlOp c).toNat = c.toNat / 8 ∧ (controlFmt c).toNat = c.toNat / 4 % 2 ∧
      (controlRm c).toNat = c.toNat % 4

/-- R40: the rm codes, both ways; every value of rm is legal for every op, it never changes the operation
selected. -/
def Obligations.RmFieldSelectsTheRoundingMode : Prop :=
  RoundingMode.ofBits 0 = .towardZero ∧ RoundingMode.ofBits 1 = .tiesToEven ∧
    RoundingMode.ofBits 2 = .towardPositive ∧ RoundingMode.ofBits 3 = .towardNegative ∧
      (∀ rm : RoundingMode, RoundingMode.ofBits rm.toBits = rm) ∧
        ∀ (op : BitVec 3) (fmt : BitVec 1) (rm rm' : BitVec 2),
          (decode (packControl op fmt rm)).mnemonic = (decode (packControl op fmt rm')).mnemonic

/-- A few control words written out from R53's patterns decode to the instruction they stand for. -/
def Obligations.WrittenControlWordsDecode : Prop :=
  decode 0b000011#6 = .fpassH 3 ∧ decode 0b000100#6 = .fpassS 0 ∧
    decode 0b001001#6 = .fmulH .tiesToEven ∧ decode 0b001111#6 = .fmulS .towardNegative ∧
      decode 0b010010#6 = .faddH .towardPositive ∧ decode 0b010100#6 = .faddS .towardZero ∧
        decode 0b011001#6 = .fsubH .tiesToEven ∧ decode 0b011110#6 = .fsubS .towardPositive ∧
          decode 0b100011#6 = .fdivH .towardNegative ∧ decode 0b100101#6 = .fdivS .tiesToEven ∧
            decode 0b101101#6 = .reserved101 0b101 ∧ decode 0b111111#6 = .reserved11 0b1111

/-- R53: exactly one row matches each of the 64 control words, and it is the decoded one's. -/
def Obligations.ExactlyOneRowMatchesEachControlWord : Prop :=
  ∀ c : BitVec 6, (rowsSelected c).map (fun r => r.2.2) = [(decode c).mnemonic]

/-- Decoding gives back every encoded instruction, and encoding every decoded control word. -/
def Obligations.ControlWordDecodeEncodeAgree : Prop :=
  (∀ i : Instr, decode (encode i) = i) ∧ ∀ c : BitVec 6, encode (decode c) = c

/-- Whole transactions (R36): decoding the encoding of a well-formed decoded transaction gives it back,
with its instruction and both operands' sign, exponent field and mantissa field, in both formats. -/
def Obligations.TransactionDecodeEncodeAgree : Prop :=
  ∀ d : DecodedTransaction, d.wf = true → decodeTransaction (encodeTransaction d) = d

/-- R70, R41: PACK puts sign, exponent field and mantissa field where FIELDS reads them, and the word
fits the format (bits [31:16] are 0 for half). -/
def Obligations.PackPlacesItsFields : Prop :=
  ∀ (fmt : Format) (s : Bool) (f t : Nat), f ≤ fmt.emaxf → t < 2 ^ fmt.M →
    fields fmt (pack fmt s f t) = ⟨s, f, t⟩ ∧ (pack fmt s f t).toNat < 2 ^ fmt.W

/-- R49: an arithmetic line assembles to its control word and operand words, an FPASS line to
rm = 0 and b = 0; the rule's own example. -/
def Obligations.AssemblyLinesEncode : Prop :=
  (∀ (op : ArithOp) (fmt : Format) (rm : RmToken) (a b : Word),
      decode (assemble (.arith op fmt rm a b)).ctrl = op.instr fmt rm.mode ∧
        (assemble (.arith op fmt rm a b)).a = a ∧ (assemble (.arith op fmt rm a b)).b = b) ∧
    (∀ a : Word, assemble (.pass .half a) = ⟨0x00, a, 0⟩ ∧ assemble (.pass .single a) = ⟨0x04, a, 0⟩) ∧
      assemble (.arith .add .half (.name .tiesToEven) 0x3C00 0x3C00) = ⟨0x11, 0x3C00, 0x3C00⟩

/-! ### The step -/

/-- A step runs the instruction its control ports encode, and nothing around it. -/
def Obligations.StepRunsTheDecodedInstruction : Prop :=
  ∀ (i : Instr) (s : State), packControl s.op s.fmt s.rm = encode i → step s = exec i s

/-- A transaction presented by the host is the one the next step runs, on the presented operands. -/
def Obligations.PresentedTransactionRunsNext : Prop :=
  ∀ (i : Instr) (a b : Word) (s : State),
    step (presentTransaction ⟨encode i, a, b⟩ s) = exec i (presentTransaction ⟨encode i, a, b⟩ s) ∧
      (presentTransaction ⟨encode i, a, b⟩ s).a = a ∧ (presentTransaction ⟨encode i, a, b⟩ s).b = b

/-- R103: no transaction errs; every step of every state has a next state. -/
def Obligations.EveryStepHasANextState : Prop :=
  ∀ s : State, ∃ t, step s = .next t

/-- The frame of every instruction: it writes `res`, `inv` and their validity, and no input port and no
free-value index. -/
def Obligations.InstructionsWriteOnlyTheOutputs : Prop :=
  ∀ (i : Instr) (s t : State), exec i s = .next t →
    t.op = s.op ∧ t.fmt = s.fmt ∧ t.rm = s.rm ∧ t.a = s.a ∧ t.b = s.b ∧
      t.unsettledCount = s.unsettledCount ∧ t.settled = true

/-- R102: a step drives FPCORE of the input ports and changes nothing else. -/
def Obligations.StepDrivesFpcoreOfThePorts : Prop :=
  ∀ s : State, step s = .next { s with
    res := (fpcore s.op s.fmt s.rm s.a s.b).1
    inv := (fpcore s.op s.fmt s.rm s.a s.b).2
    settled := true }

/-- R13: the outputs are a function of the transaction's inputs alone; what else a state holds (earlier
outputs) does not show in them. -/
def Obligations.OutputsDependOnInputsAlone : Prop :=
  ∀ s t s' t' : State, SameInputs s t → step s = .next s' → step t = .next t' →
    s'.res = t'.res ∧ s'.inv = t'.inv

/-- R31: evaluating the same inputs twice gives the same outputs. -/
def Obligations.TransactionsAreIdempotent : Prop :=
  ∀ s t : State, step s = .next t → step t = .next t

/-- R29: half format reads `a[15:0]` and `b[15:0]` only and drives `res[31:16]` = 0; in single format the
format word on a port is the whole port. -/
def Obligations.HalfWordsOccupyTheLowHalfOfThePorts : Prop :=
  (∀ (s s' : State) (a b : Word), s.fmt = 0 → a.toNat % 2 ^ 16 = s.a.toNat % 2 ^ 16 →
      b.toNat % 2 ^ 16 = s.b.toNat % 2 ^ 16 → step s = .next s' →
        step { s with a := a, b := b } = .next { s' with a := a, b := b }) ∧
    (∀ s s' : State, s.fmt = 0 → step s = .next s' → s'.res.toNat < 2 ^ 16) ∧
      ∀ w : Word, formatWord .single w = w

/-- R16: after any transaction `inv` is 1 exactly when `op` holds a reserved code, and a half result is
zero-extended from bit 16. -/
def Obligations.InvMarksExactlyTheReservedCodes : Prop :=
  ∀ s t : State, step s = .next t →
    (t.inv = 1 ↔ s.op = 0b101 ∨ s.op = 0b110 ∨ s.op = 0b111) ∧
      (s.fmt = 0 → t.res.toNat / 2 ^ 16 = 0)

/-- The outputs stay valid until an input changes (R119); after a change they are not valid, and a step
makes them valid again. Amounts of time are the model's choice, log 7. -/
def Obligations.OutputsAreValidUntilAnInputChanges : Prop :=
  ∀ (op : BitVec 3) (fmt : BitVec 1) (rm : BitVec 2) (a b : Word) (s : State),
    (s.present op fmt rm a b = s ↔ op = s.op ∧ fmt = s.fmt ∧ rm = s.rm ∧ a = s.a ∧ b = s.b) ∧
      (¬(op = s.op ∧ fmt = s.fmt ∧ rm = s.rm ∧ a = s.a ∧ b = s.b) →
        (s.present op fmt rm a b).settled = false) ∧
        ∃ t, step (s.present op fmt rm a b) = .next t ∧ t.settled = true ∧ t.op = op ∧ t.fmt = fmt ∧
          t.rm = rm ∧ t.a = a ∧ t.b = b

/-! ### Invariants -/

/-- The state after power-up meets both invariants: its outputs are not yet valid (R116). -/
def Obligations.ResetMeetsTheInvariants : Prop :=
  OutputsValid State.reset ∧ OutputsShaped State.reset ∧ State.reset.settled = false

/-- Every step, from every state that meets them, keeps both invariants: valid outputs are FPCORE of the
ports, `inv` marks exactly the reserved codes, a half result is zero-extended, and the only NaN of an
arithmetic operation is the canonical one. -/
def Obligations.StepKeepsTheInvariants : Prop :=
  ∀ s t : State, OutputsValid s ∧ OutputsShaped s → step s = .next t → OutputsValid t ∧ OutputsShaped t

/-- What the host does to the inputs keeps both invariants too. -/
def Obligations.PresentingInputsKeepsTheInvariants : Prop :=
  ∀ (op : BitVec 3) (fmt : BitVec 1) (rm : BitVec 2) (a b : Word) (s : State),
    OutputsValid s ∧ OutputsShaped s →
      OutputsValid (s.present op fmt rm a b) ∧ OutputsShaped (s.present op fmt rm a b)

/-! ### Pass-through and reserved codes -/

/-- R99: FPASS.H drives the half word on `a` bit for bit, `inv` = 0, whatever rm, `b` and `a[31:16]`. -/
def Obligations.FpassHReturnsTheHalfWord : Prop :=
  (∀ x : BitVec 2, decode (0b0000#4 ++ x) = .fpassH x) ∧
    ∀ (x : BitVec 2) (s : State),
      exec (.fpassH x) s = .next { s with res := (s.a.extractLsb' 0 16).zeroExtend 32, inv := 0, settled := true }

/-- R100: FPASS.S drives the word on `a` bit for bit, `inv` = 0, whatever rm and `b`. -/
def Obligations.FpassSReturnsTheWord : Prop :=
  (∀ x : BitVec 2, decode (0b0001#4 ++ x) = .fpassS x) ∧
    ∀ (x : BitVec 2) (s : State),
      exec (.fpassS x) s = .next { s with res := s.a, inv := 0, settled := true }

/-- R101: a reserved op drives `res` = 0 and `inv` = 1, whatever fmt, rm, `a` and `b` hold, and raises
nothing: both reserved rows, and every step with such an op. -/
def Obligations.ReservedCodesDriveZeroAndInv : Prop :=
  (∀ (x : BitVec 3) (s : State),
      exec (.reserved101 x) s = .next { s with res := 0, inv := 1, settled := true }) ∧
    (∀ (x : BitVec 4) (s : State),
      exec (.reserved11 x) s = .next { s with res := 0, inv := 1, settled := true }) ∧
      ∀ s : State, s.op = 0b101 ∨ s.op = 0b110 ∨ s.op = 0b111 →
        step s = .next { s with res := 0, inv := 1, settled := true }

/-! ### Sub-blocks -/

/-- R55: the five classes by exponent field and mantissa field. -/
def Obligations.ClassifyIsByExponentAndMantissa : Prop :=
  ∀ (fmt : Format) (w : Word),
    (classify fmt w = .zero ↔ (fields fmt w).f = 0 ∧ (fields fmt w).t = 0) ∧
    (classify fmt w = .subnormal ↔ (fields fmt w).f = 0 ∧ (fields fmt w).t ≠ 0) ∧
    (classify fmt w = .infinity ↔ (fields fmt w).f = fmt.emaxf ∧ (fields fmt w).t = 0) ∧
    (classify fmt w = .nan ↔ (fields fmt w).f = fmt.emaxf ∧ (fields fmt w).t ≠ 0) ∧
    (classify fmt w = .normal ↔ 0 < (fields fmt w).f ∧ (fields fmt w).f < fmt.emaxf)

/-- R56: the leading one moves to bit M by 1 to M left shifts, the exponent falling from `1 - BIAS` by
one per shift. -/
def Obligations.SubnormalNormalizeMovesTheLeadingOne : Prop :=
  ∀ (fmt : Format) (t : Nat), 0 < t → t < 2 ^ fmt.M →
    ∃ k, 1 ≤ k ∧ k ≤ fmt.M ∧ subnormalNormalize fmt t = (1 - (fmt.bias : Int) - k, t * 2 ^ k) ∧
      2 ^ fmt.M ≤ t * 2 ^ k ∧ t * 2 ^ k < 2 ^ (fmt.M + 1)

/-- R57: a finite nonzero operand unpacks to a normalised significand, the operand's sign, its exact
value, and an exponent from `emin - M` to `emax`. -/
def Obligations.UnpackIsExactAndNormalised : Prop :=
  ∀ (fmt : Format) (w : Word), isFiniteNonzero (classify fmt w) = true →
    (unpack fmt w).Normalised fmt ∧ (unpack fmt w).s = (fields fmt w).s ∧
      (unpack fmt w).magnitude fmt = magnitude fmt w ∧
        fmt.emin - fmt.M ≤ (unpack fmt w).e ∧ (unpack fmt w).e ≤ fmt.emax ∧ 0 < magnitude fmt w

/-- R45: the notable words of both formats, and the values R44 gives them. -/
def Obligations.NotableWords : Prop :=
  makeZero .half false = 0x0000 ∧ makeZero .half true = 0x8000 ∧
  makeZero .single false = 0x00000000 ∧ makeZero .single true = 0x80000000 ∧
  makeMaxFinite .half false = 0x7BFF ∧ makeMaxFinite .half true = 0xFBFF ∧
  makeMaxFinite .single false = 0x7F7FFFFF ∧ makeMaxFinite .single true = 0xFF7FFFFF ∧
  makeInf .half false = 0x7C00 ∧ makeInf .half true = 0xFC00 ∧
  makeInf .single false = 0x7F800000 ∧ makeInf .single true = 0xFF800000 ∧
  makeNan .half = 0x7FFE ∧ makeNan .single = 0x7FFFFFFE ∧
  numericValue .half 0x8000 = .zero true ∧ numericValue .single 0xFF800000 = .infinity true ∧
  numericValue .half 0x7FFE = .notANumber ∧
  numericValue .half 0x0001 = .finite (1 / 2 ^ 24) ∧ numericValue .half 0x0400 = .finite (1 / 2 ^ 14) ∧
  numericValue .half 0x3C00 = .finite 1 ∧ numericValue .half 0x7BFF = .finite 65504 ∧
  numericValue .single 0x00000001 = .finite (1 / 2 ^ 149) ∧
  numericValue .single 0x00800000 = .finite (1 / 2 ^ 126) ∧
  numericValue .single 0x40400000 = .finite 3 ∧ numericValue .single 0x3F000000 = .finite (1 / 2)

/-- R62: the overflow table, every row in both formats. -/
def Obligations.OverflowTable : Prop :=
  ∀ (fmt : Format) (s : Bool),
    overflowResult fmt s .towardZero = makeMaxFinite fmt s ∧
    overflowResult fmt s .tiesToEven = makeInf fmt s ∧
    overflowResult fmt s .towardPositive = (if s then makeMaxFinite fmt true else makeInf fmt false) ∧
    overflowResult fmt s .towardNegative = (if s then makeInf fmt true else makeMaxFinite fmt false)

/-- R63: when each mode increments. -/
def Obligations.RoundingModesIncrement : Prop :=
  ∀ (m : Nat) (s h st : Bool),
    Machine.round m s h st .towardZero = m ∧
    Machine.round m s h st .tiesToEven =
      (if (st = true ∧ h = true) ∨ (h = true ∧ m % 2 = 1) then m + 1 else m) ∧
    Machine.round m s h st .towardPositive =
      (if s = false ∧ (h = true ∨ st = true) then m + 1 else m) ∧
    Machine.round m s h st .towardNegative =
      (if s = true ∧ (h = true ∨ st = true) then m + 1 else m)

/-- R65: the new half-bit is the highest bit shifted out, the new sticky-bit the OR of everything below
it with the old half-bit and sticky-bit; the saturation the rule names. -/
def Obligations.ShrJamDescribesTheDiscardedPart : Prop :=
  (∀ (m : Nat) (h st : Bool), shrJam m h st 0 = (m, h, st)) ∧
    (∀ (m : Nat) (h st : Bool) (d : Nat), 0 < d →
      (shrJam m h st d).1 = m / 2 ^ d ∧ (shrJam m h st d).2.1 = m.testBit (d - 1) ∧
        ((shrJam m h st d).2.2 = true ↔ st = true ∨ h = true ∨ ∃ i, i < d - 1 ∧ m.testBit i = true)) ∧
      ∀ (fmt : Format) (m d : Nat), 2 ^ fmt.M ≤ m → m < 2 ^ (fmt.M + 1) →
        (d = fmt.M + 1 → (shrJam m false false d).2.1 = true) ∧
          (fmt.M + 2 ≤ d → shrJam m false false d = (0, false, true))

/-- R66: JAM shifts right and ORs every bit shifted out into bit 0; the saturation the rule names. -/
def Obligations.JamKeepsTheDiscardedBitsInBitZero : Prop :=
  (∀ x d i : Nat, 0 < i → (jam x d).testBit i = x.testBit (i + d)) ∧
    (∀ x d : Nat, (jam x d).testBit 0 = true ↔ ∃ i, i ≤ d ∧ x.testBit i = true) ∧
      ∀ (fmt : Format) (x d : Nat), 0 < x → x < 2 ^ (fmt.M + 4) → fmt.M + 4 ≤ d → jam x d = 1

/-- R67: the leading one reaches bit P, and the exponent falls by the number of places shifted. -/
def Obligations.LeftNormalizeReachesTheLeadingPosition : Prop :=
  ∀ (D P : Nat) (be : Int), 0 < D → D < 2 ^ (P + 1) →
    ∃ z, z ≤ P ∧ leftNormalize D be P = (D * 2 ^ z, be - z) ∧ 2 ^ P ≤ D * 2 ^ z ∧
      D * 2 ^ z < 2 ^ (P + 1)

/-- R85: ORDER puts the larger magnitude first, the first operand where they are equal, and a difference
of unequal magnitudes takes the sign of the larger one. -/
def Obligations.OrderPutsTheLargerMagnitudeFirst : Prop :=
  ∀ (fmt : Format) (x y : Unpacked), x.Normalised fmt → y.Normalised fmt →
    (y.magnitude fmt ≤ x.magnitude fmt → order x y = (x, y)) ∧
      (x.magnitude fmt < y.magnitude fmt → order x y = (y, x)) ∧
        ∀ rm : RoundingMode,
          (y.magnitude fmt < x.magnitude fmt → signBit fmt (magSub fmt rm x y) = x.s) ∧
            (x.magnitude fmt < y.magnitude fmt → signBit fmt (magSub fmt rm x y) = y.s)

/-! ### The kernels' intermediates -/

/-- R77: the product's intermediate meets the contract of R68 for the exact product. -/
def Obligations.MultiplyIntermediateIsTheExactProduct : Prop :=
  ∀ (fmt : Format) (x y : Unpacked), x.Normalised fmt → y.Normalised fmt →
    (mulIntermediate fmt x y).Represents fmt (x.magnitude fmt * y.magnitude fmt) ∧
      (mulIntermediate fmt x y).s = (x.s != y.s)

/-- R84: the magnitude adder's intermediate meets the contract of R68 for the exact sum. -/
def Obligations.AddIntermediateIsTheExactSum : Prop :=
  ∀ (fmt : Format) (s : Bool) (x y : Unpacked), x.Normalised fmt → y.Normalised fmt →
    (addIntermediate fmt s x y).Represents fmt (x.magnitude fmt + y.magnitude fmt) ∧
      (addIntermediate fmt s x y).s = s

/-- R87: the magnitude subtractor's intermediate meets the contract of R68 for the exact difference,
for every exponent difference, and takes the larger operand's sign. -/
def Obligations.SubtractIntermediateIsTheExactDifference : Prop :=
  ∀ (fmt : Format) (l r : Unpacked), l.Normalised fmt → r.Normalised fmt →
    r.magnitude fmt < l.magnitude fmt →
      (subIntermediate fmt l r).Represents fmt (l.magnitude fmt - r.magnitude fmt) ∧
        (subIntermediate fmt l r).s = l.s

/-- R95: the quotient's intermediate meets the contract of R68 for the exact quotient. -/
def Obligations.DivideIntermediateIsTheExactQuotient : Prop :=
  ∀ (fmt : Format) (x y : Unpacked), x.Normalised fmt → y.Normalised fmt →
    (divIntermediate fmt x y).Represents fmt (x.magnitude fmt / y.magnitude fmt) ∧
      (divIntermediate fmt x y).s = (x.s != y.s)

/-- R88: where `d >= M+3` the "a minus one ULP" shortcut gives the same intermediate as R87, and at
`d = M+2` with a power-of-two minuend it gives a wrong word (half 0x3C00 - 0x0E00, RNE). -/
def Obligations.ShortcutAgreesFromDistanceMPlusThree : Prop :=
  (∀ (fmt : Format) (l r : Unpacked), l.Normalised fmt → r.Normalised fmt →
      r.e + (fmt.M + 3) ≤ l.e → shortcutIntermediate fmt l = subIntermediate fmt l r) ∧
    finish .half (shortcutIntermediate .half (unpack .half 0x3C00)) .tiesToEven = 0x3C00 ∧
      fsub .half .tiesToEven 0x3C00 0x0E00 = 0x3BFF

/-- R74, row by row, for all finite nonzero operands: the widths of the significands, product, aligned
sum, subtractor operands and difference, dividend, quotient and remainder; the biased exponent of each
kernel between its two bounds (R77, R84, R87, R95), within the range of R74; and the shift amounts at
which SHR_JAM and JAM may saturate. The adder's lower bound, -9 and -22, is the least exponent of an
operand (R57) biased. -/
def Obligations.DatapathWidthsSuffice : Prop :=
  (∀ (fmt : Format) (a b : Word), isFiniteNonzero (classify fmt a) = true →
    isFiniteNonzero (classify fmt b) = true →
      let x := unpack fmt a
      let y := unpack fmt b
      let M := fmt.M
      let within (n : Int) (half single : Int × Int) : Prop :=
        match fmt with
        | .half => half.1 ≤ n ∧ n ≤ half.2
        | .single => single.1 ≤ n ∧ n ≤ single.2
      let l := (alignOrder x y).1
      let r := (alignOrder x y).2
      let A := (order x y).1
      let B := (order x y).2
      let N := x.sig <<< (M + 3)
      (x.sig < 2 ^ (M + 1) ∧ x.sig * y.sig < 2 ^ (2 * M + 2) ∧
        l.sig + (shrJam r.sig false false (l.e - r.e).toNat).1 < 2 ^ (M + 2)) ∧
      (A.sig <<< 3 < 2 ^ (M + 4) ∧ jam (B.sig <<< 3) (A.e - B.e).toNat < 2 ^ (M + 4) ∧
        alignedDifference A B < 2 ^ (M + 4)) ∧
      (N < 2 ^ (2 * M + 4) ∧ N / y.sig < 2 ^ (M + 4) ∧ N % y.sig < 2 ^ (M + 1)) ∧
      ((mulIntermediate fmt x y).m < 2 ^ (M + 1) ∧
        within (mulIntermediate fmt x y).be (-33, 46) (-171, 382)) ∧
      ((divIntermediate fmt x y).m < 2 ^ (M + 1) ∧
        within (divIntermediate fmt x y).be (-25, 54) (-150, 403)) ∧
      ((addIntermediate fmt x.s x y).m < 2 ^ (M + 1) ∧
        within (addIntermediate fmt x.s x y).be (-9, 31) (-22, 255)) ∧
      (¬(A.e = B.e ∧ A.sig = B.sig) →
        (subIntermediate fmt A B).m < 2 ^ (M + 1) ∧
          A.e + fmt.bias - (M + 3) ≤ (subIntermediate fmt A B).be ∧
            (subIntermediate fmt A B).be ≤ A.e + fmt.bias ∧
              within (subIntermediate fmt A B).be (-22, 30) (-48, 254))) ∧
    (∀ (fmt : Format) (m : Nat) (h st : Bool) (d : Nat), m < 2 ^ (fmt.M + 1) →
      shrJam m h st d = shrJam m h st (min d (fmt.M + 2))) ∧
    (∀ (fmt : Format) (x d : Nat), x < 2 ^ (fmt.M + 4) → jam x d = jam x (min d (fmt.M + 4))) ∧
    (Format.half.M + 4 < 2 ^ 4 ∧ Format.single.M + 4 < 2 ^ 5)

/-! ### Finishing and the normative value -/

/-- R72: FINISH computes ROUND_EXACT for every intermediate that meets the contract of R68. -/
def Obligations.FinishComputesRoundExact : Prop :=
  ∀ (fmt : Format) (i : Intermediate) (x : ℚ) (rm : RoundingMode), i.Represents fmt x →
    finish fmt i rm = roundExact fmt i.s x rm

/-- Every finished word carries the sign of the exact result, zeros included (R75), and is no NaN. -/
def Obligations.FinishKeepsTheSign : Prop :=
  ∀ (fmt : Format) (i : Intermediate) (rm : RoundingMode),
    signBit fmt (finish fmt i rm) = i.s ∧ classify fmt (finish fmt i rm) ≠ .nan

/-- R64, R96: a rounding carry out of a clamped subnormal gives the smallest normal, exponent field 1. -/
def Obligations.SubnormalCarryPromotesToTheSmallestNormal : Prop :=
  ∀ (fmt : Format) (i : Intermediate) (rm : RoundingMode), i.be ≤ 0 → i.m < 2 ^ (fmt.M + 1) →
    Machine.round (clampUnderflow i).m i.s (clampUnderflow i).h (clampUnderflow i).st rm = 2 ^ fmt.M →
      finish fmt i rm = pack fmt i.s 1 0

/-- ROUND_EXACT leaves a representable value as it is, in every mode (R71, R44). -/
def Obligations.RoundExactFixesRepresentableValues : Prop :=
  ∀ (fmt : Format) (w : Word) (rm : RoundingMode), isFiniteNonzero (classify fmt w) = true →
    roundExact fmt (signBit fmt w) (magnitude fmt w) rm = formatWord fmt w

/-- R76: FMUL.H and FMUL.S: NaN first, Inf × 0, infinities, zeros, rm with no effect on these; two finite
nonzero operands go to MUL_KERNEL. -/
def Obligations.MultiplyResolvesSpecialOperands : Prop :=
  ∀ (rm : RoundingMode) (s : State),
    let out (fmt : Format) (i : Instr) : Prop :=
      let ca := classify fmt s.a
      let cb := classify fmt s.b
      let sign := signBit fmt s.a != signBit fmt s.b
      let gives (w : Word) : Prop := exec i s = .next { s with res := w, inv := 0, settled := true }
      (ca = .nan ∨ cb = .nan → gives (makeNan fmt)) ∧
      ((ca = .infinity ∧ cb = .zero) ∨ (ca = .zero ∧ cb = .infinity) → gives (makeNan fmt)) ∧
      (ca = .infinity ∧ cb ≠ .nan ∧ cb ≠ .zero → gives (makeInf fmt sign)) ∧
      (cb = .infinity ∧ ca ≠ .nan ∧ ca ≠ .zero → gives (makeInf fmt sign)) ∧
      (ca = .zero ∧ cb ≠ .nan ∧ cb ≠ .infinity → gives (makeZero fmt sign)) ∧
      (cb = .zero ∧ ca ≠ .nan ∧ ca ≠ .infinity → gives (makeZero fmt sign)) ∧
      (BothFinite fmt s → gives (mulKernel fmt rm s.a s.b))
    out .half (.fmulH rm) ∧ out .single (.fmulS rm)

/-- R71 for FMUL.H and FMUL.S: on finite nonzero operands the result is the exact product, correctly
rounded, with the sign a xor b. -/
def Obligations.MultiplyRoundsTheExactProduct : Prop :=
  ∀ (rm : RoundingMode) (s : State),
    (BothFinite .half s → exec (.fmulH rm) s = .next { s with
      res := roundExact .half (signBit .half s.a != signBit .half s.b)
        (magnitude .half s.a * magnitude .half s.b) rm
      inv := 0, settled := true }) ∧
    (BothFinite .single s → exec (.fmulS rm) s = .next { s with
      res := roundExact .single (signBit .single s.a != signBit .single s.b)
        (magnitude .single s.a * magnitude .single s.b) rm
      inv := 0, settled := true })

/-- R78: every non-NaN multiply result has the sign a xor b. -/
def Obligations.MultiplySignIsXor : Prop :=
  ∀ (fmt : Format) (rm : RoundingMode) (a b : Word), classify fmt (fmul fmt rm a b) ≠ .nan →
    signBit fmt (fmul fmt rm a b) = (signBit fmt a != signBit fmt b)

/-! ### Add and subtract -/

/-- R82: FADD.H and FADD.S: NaN first, infinities, the sign-of-zero rule, a zero beside a nonzero word;
two finite nonzero operands go to ADD_KERNEL. -/
def Obligations.AddResolvesSpecialOperands : Prop :=
  ∀ (rm : RoundingMode) (s : State),
    let out (fmt : Format) (i : Instr) : Prop :=
      let ca := classify fmt s.a
      let cb := classify fmt s.b
      let sa := signBit fmt s.a
      let sb := signBit fmt s.b
      let gives (w : Word) : Prop := exec i s = .next { s with res := w, inv := 0, settled := true }
      (ca = .nan ∨ cb = .nan → gives (makeNan fmt)) ∧
      (ca = .infinity ∧ cb = .infinity ∧ sa ≠ sb → gives (makeNan fmt)) ∧
      (ca = .infinity ∧ cb = .infinity ∧ sa = sb → gives (makeInf fmt sa)) ∧
      (ca = .infinity ∧ cb ≠ .nan ∧ cb ≠ .infinity → gives (makeInf fmt sa)) ∧
      (cb = .infinity ∧ ca ≠ .nan ∧ ca ≠ .infinity → gives (makeInf fmt sb)) ∧
      (ca = .zero ∧ cb = .zero ∧ sa = sb → gives (makeZero fmt sa)) ∧
      (ca = .zero ∧ cb = .zero ∧ sa ≠ sb → gives (makeZero fmt (rm == .towardNegative))) ∧
      (ca = .zero ∧ isFiniteNonzero cb = true → gives (formatWord fmt s.b)) ∧
      (cb = .zero ∧ isFiniteNonzero ca = true → gives (formatWord fmt s.a)) ∧
      (BothFinite fmt s → gives (addKernel fmt rm s.a s.b))
    out .half (.faddH rm) ∧ out .single (.faddS rm)

/-- R71 for FADD.H and FADD.S: a nonzero exact sum of finite nonzero operands is correctly rounded, with
its own sign. -/
def Obligations.AddRoundsTheExactSum : Prop :=
  ∀ (rm : RoundingMode) (s : State),
    let sum (fmt : Format) : ℚ := rationalValue fmt s.a + rationalValue fmt s.b
    (BothFinite .half s → sum .half ≠ 0 → exec (.faddH rm) s = .next { s with
      res := roundExact .half (decide (sum .half < 0)) |sum .half| rm, inv := 0, settled := true }) ∧
    (BothFinite .single s → sum .single ≠ 0 → exec (.faddS rm) s = .next { s with
      res := roundExact .single (decide (sum .single < 0)) |sum .single| rm, inv := 0, settled := true })

/-- R86: exact cancellation of finite nonzero operands, in an add or a subtract of either format, gives
+0 under RTZ, RNE and RUP and -0 under RDN. -/
def Obligations.ExactCancellationGivesSignedZero : Prop :=
  ∀ (rm : RoundingMode) (s : State),
    let zero (fmt : Format) : Word := if rm = .towardNegative then makeZero fmt true else makeZero fmt false
    let gives (i : Instr) (w : Word) : Prop := exec i s = .next { s with res := w, inv := 0, settled := true }
    (BothFinite .half s → rationalValue .half s.a + rationalValue .half s.b = 0 →
      gives (.faddH rm) (zero .half)) ∧
    (BothFinite .single s → rationalValue .single s.a + rationalValue .single s.b = 0 →
      gives (.faddS rm) (zero .single)) ∧
    (BothFinite .half s → rationalValue .half s.a = rationalValue .half s.b →
      gives (.fsubH rm) (zero .half)) ∧
    (BothFinite .single s → rationalValue .single s.a = rationalValue .single s.b →
      gives (.fsubS rm) (zero .single))

/-- R81: FSUB.H and FSUB.S give what FADD.H and FADD.S give with the sign bit of `b` inverted; the port
`b` itself is never changed. -/
def Obligations.SubtractIsAddOfTheFlippedWord : Prop :=
  ∀ (rm : RoundingMode) (s t : State),
    (exec (.faddH rm) { s with b := s.b ^^^ 0x8000 } = .next t →
      exec (.fsubH rm) s = .next { t with b := s.b }) ∧
    (exec (.faddS rm) { s with b := s.b ^^^ 0x80000000 } = .next t →
      exec (.fsubS rm) s = .next { t with b := s.b })

/-- R82 through R81 for FSUB.H and FSUB.S on special operands: infinities of one sign cancel to NaN,
`b`'s sign counts flipped, and a zero minus a word is the flipped word. -/
def Obligations.SubtractResolvesSpecialOperands : Prop :=
  ∀ (rm : RoundingMode) (s : State),
    let out (fmt : Format) (i : Instr) : Prop :=
      let ca := classify fmt s.a
      let cb := classify fmt s.b
      let sa := signBit fmt s.a
      let sb := signBit fmt s.b
      let gives (w : Word) : Prop := exec i s = .next { s with res := w, inv := 0, settled := true }
      (ca = .nan ∨ cb = .nan → gives (makeNan fmt)) ∧
      (ca = .infinity ∧ cb = .infinity ∧ sa = sb → gives (makeNan fmt)) ∧
      (ca = .infinity ∧ cb = .infinity ∧ sa ≠ sb → gives (makeInf fmt sa)) ∧
      (ca = .infinity ∧ cb ≠ .nan ∧ cb ≠ .infinity → gives (makeInf fmt sa)) ∧
      (cb = .infinity ∧ ca ≠ .nan ∧ ca ≠ .infinity → gives (makeInf fmt (!sb))) ∧
      (ca = .zero ∧ cb = .zero ∧ sa ≠ sb → gives (makeZero fmt sa)) ∧
      (ca = .zero ∧ cb = .zero ∧ sa = sb → gives (makeZero fmt (rm == .towardNegative))) ∧
      (ca = .zero ∧ isFiniteNonzero cb = true →
        gives (pack fmt (!sb) (fields fmt s.b).f (fields fmt s.b).t)) ∧
      (cb = .zero ∧ isFiniteNonzero ca = true → gives (formatWord fmt s.a))
    out .half (.fsubH rm) ∧ out .single (.fsubS rm)

/-- R71 for FSUB.H and FSUB.S: a nonzero exact difference of finite nonzero operands is correctly
rounded, with its own sign. -/
def Obligations.SubtractRoundsTheExactDifference : Prop :=
  ∀ (rm : RoundingMode) (s : State),
    let diff (fmt : Format) : ℚ := rationalValue fmt s.a - rationalValue fmt s.b
    (BothFinite .half s → diff .half ≠ 0 → exec (.fsubH rm) s = .next { s with
      res := roundExact .half (decide (diff .half < 0)) |diff .half| rm, inv := 0, settled := true }) ∧
    (BothFinite .single s → diff .single ≠ 0 → exec (.fsubS rm) s = .next { s with
      res := roundExact .single (decide (diff .single < 0)) |diff .single| rm, inv := 0, settled := true })

/-- R89: a nonzero sum of finite nonzero operands below `2^emin` in magnitude is exact under every mode. -/
def Obligations.SubnormalSumsAreExact : Prop :=
  ∀ (fmt : Format) (rm : RoundingMode) (a b : Word), isFiniteNonzero (classify fmt a) = true →
    isFiniteNonzero (classify fmt b) = true →
      rationalValue fmt a + rationalValue fmt b ≠ 0 →
        |rationalValue fmt a + rationalValue fmt b| < 2 ^ fmt.emin →
          rationalValue fmt (fadd fmt rm a b) = rationalValue fmt a + rationalValue fmt b ∧
            classify fmt (fadd fmt rm a b) = .subnormal

/-- R94: FDIV.H and FDIV.S: NaN first, 0/0 and ∞/∞, division by zero, infinities, zeros, rm with no effect
on these; two finite nonzero operands go to DIV_KERNEL. -/
def Obligations.DivideResolvesSpecialOperands : Prop :=
  ∀ (rm : RoundingMode) (s : State),
    let out (fmt : Format) (i : Instr) : Prop :=
      let ca := classify fmt s.a
      let cb := classify fmt s.b
      let sign := signBit fmt s.a != signBit fmt s.b
      let gives (w : Word) : Prop := exec i s = .next { s with res := w, inv := 0, settled := true }
      (ca = .nan ∨ cb = .nan → gives (makeNan fmt)) ∧
      ((ca = .zero ∧ cb = .zero) ∨ (ca = .infinity ∧ cb = .infinity) → gives (makeNan fmt)) ∧
      (cb = .zero ∧ ca ≠ .nan ∧ ca ≠ .zero → gives (makeInf fmt sign)) ∧
      (ca = .infinity ∧ cb ≠ .nan ∧ cb ≠ .infinity → gives (makeInf fmt sign)) ∧
      (ca = .zero ∧ cb ≠ .nan ∧ cb ≠ .zero → gives (makeZero fmt sign)) ∧
      (cb = .infinity ∧ ca ≠ .nan ∧ ca ≠ .infinity → gives (makeZero fmt sign)) ∧
      (BothFinite fmt s → gives (divKernel fmt rm s.a s.b))
    out .half (.fdivH rm) ∧ out .single (.fdivS rm)

/-- R71 for FDIV.H and FDIV.S: on finite nonzero operands the result is the exact quotient, correctly
rounded, with the sign a xor b. -/
def Obligations.DivideRoundsTheExactQuotient : Prop :=
  ∀ (rm : RoundingMode) (s : State),
    (BothFinite .half s → exec (.fdivH rm) s = .next { s with
      res := roundExact .half (signBit .half s.a != signBit .half s.b)
        (magnitude .half s.a / magnitude .half s.b) rm
      inv := 0, settled := true }) ∧
    (BothFinite .single s → exec (.fdivS rm) s = .next { s with
      res := roundExact .single (signBit .single s.a != signBit .single s.b)
        (magnitude .single s.a / magnitude .single s.b) rm
      inv := 0, settled := true })

/-- R58: the only NaN an arithmetic operation produces is the canonical one: sign 0, exponent field all
ones, mantissa field all ones minus one. -/
def Obligations.OnlyTheCanonicalNanIsProduced : Prop :=
  (∀ fmt : Format, fields fmt (makeNan fmt) = ⟨false, fmt.emaxf, 2 ^ fmt.M - 2⟩) ∧
    ∀ (fmt : Format) (rm : RoundingMode) (a b w : Word),
      w = fmul fmt rm a b ∨ w = fadd fmt rm a b ∨ w = fsub fmt rm a b ∨ w = fdiv fmt rm a b →
        classify fmt w = .nan → w = makeNan fmt

/-- R105's first two rows. "Invalid operation": a result is a NaN exactly on a NaN operand, Inf × 0,
opposing infinities of an effective addition, 0/0 or ∞/∞. "Division by zero": a finite nonzero dividend
over a zero gives the infinity of sign a xor b. -/
def Obligations.InvalidAndDivideByZeroShowInTheResult : Prop :=
  ∀ (fmt : Format) (rm : RoundingMode) (a b : Word),
    let ca := classify fmt a
    let cb := classify fmt b
    let sa := signBit fmt a
    let sb := signBit fmt b
    (classify fmt (fmul fmt rm a b) = .nan ↔ mulInvalid ca cb = true) ∧
    (classify fmt (fadd fmt rm a b) = .nan ↔ addInvalid ca cb sa sb = true) ∧
    (classify fmt (fsub fmt rm a b) = .nan ↔ addInvalid ca cb sa (!sb) = true) ∧
    (classify fmt (fdiv fmt rm a b) = .nan ↔ divInvalid ca cb = true) ∧
    (divByZero ca cb = true → fdiv fmt rm a b = makeInf fmt (sa != sb))
end

