-- ==== Sys2Proof/Laws/Datapath.lean ====
section
/-!
SUPPORT. Small lemmas of the datapath's definitions: the bounds of the formats, format words and their
fields, packing, the leading-one position, the shifters, ordering, rounding and finishing.
-/

namespace Sys2Proof

theorem Format.W_le (fmt : Format) : fmt.W ≤ 32 := by cases fmt <;> decide

theorem Format.W_pred (fmt : Format) : fmt.W - 1 = fmt.M + fmt.E := by cases fmt <;> decide

theorem Format.W_pred_lt (fmt : Format) : fmt.W - 1 < fmt.W := by cases fmt <;> decide

theorem Format.emaxf_lt (fmt : Format) : fmt.emaxf < 2 ^ fmt.E := by cases fmt <;> decide

/-! ### Format words -/

theorem formatWord_toNat (fmt : Format) (w : Word) : (formatWord fmt w).toNat = w.toNat % 2 ^ fmt.W := by
  have h : w.toNat % 2 ^ fmt.W ≤ w.toNat := Nat.mod_le _ _
  simp only [formatWord, BitVec.toNat_ofNat]
  exact Nat.mod_eq_of_lt (lt_of_le_of_lt h w.isLt)

@[simp] theorem formatWord_formatWord (fmt : Format) (w : Word) :
    formatWord fmt (formatWord fmt w) = formatWord fmt w := by
  apply BitVec.eq_of_toNat_eq
  simp only [formatWord_toNat, Nat.mod_mod]

/-- Field extraction reads the format word only (20_memory.md R29). -/
@[simp] theorem fields_formatWord (fmt : Format) (w : Word) :
    fields fmt (formatWord fmt w) = fields fmt w := by
  have hW : fmt.W = fmt.M + (fmt.E + 1) := by cases fmt <;> rfl
  simp only [fields, formatWord_toNat, Fields.mk.injEq]
  refine ⟨?_, ?_, ?_⟩
  · rw [Nat.testBit_mod_two_pow]; simp [fmt.W_pred_lt]
  · rw [hW, pow_add, Nat.mod_mul_right_div_self, pow_succ, Nat.mod_mod_of_dvd _ (Dvd.intro _ rfl)]
  · rw [hW, pow_add, Nat.mod_mod_of_dvd _ (Dvd.intro _ rfl)]

theorem fields_f_le (fmt : Format) (w : Word) : (fields fmt w).f ≤ fmt.emaxf := by
  have h : (fields fmt w).f < 2 ^ fmt.E := Nat.mod_lt _ (by positivity)
  unfold Format.emaxf; omega

theorem fields_t_lt (fmt : Format) (w : Word) : (fields fmt w).t < 2 ^ fmt.M :=
  Nat.mod_lt _ (by positivity)

theorem fields_wf (fmt : Format) (w : Word) : (fields fmt w).wf fmt = true := by
  simp [Fields.wf, fields_f_le, fields_t_lt]

/-! ### Packing -/

/-- A packed word as a number: nothing is cut off at 32 bits. -/
theorem pack_toNat (fmt : Format) (s : Bool) (f t : Nat) :
    (pack fmt s f t).toNat =
      s.toNat * 2 ^ (fmt.W - 1) + f % 2 ^ fmt.E * 2 ^ fmt.M + t % 2 ^ fmt.M := by
  have hf : f % 2 ^ fmt.E < 2 ^ fmt.E := Nat.mod_lt _ (by positivity)
  have ht : t % 2 ^ fmt.M < 2 ^ fmt.M := Nat.mod_lt _ (by positivity)
  have hs : s.toNat ≤ 1 := by cases s <;> decide
  simp only [pack, BitVec.toNat_ofNat]
  apply Nat.mod_eq_of_lt
  generalize f % 2 ^ fmt.E = x at *
  generalize t % 2 ^ fmt.M = y at *
  generalize s.toNat = z at *
  cases fmt <;> simp [Format.W, Format.E, Format.M, Format.spec] at * <;> omega

/-- A packed word lies in its format's width. -/
theorem pack_lt (fmt : Format) (s : Bool) (f t : Nat) : (pack fmt s f t).toNat < 2 ^ fmt.W := by
  have hf : f % 2 ^ fmt.E < 2 ^ fmt.E := Nat.mod_lt _ (by positivity)
  have ht : t % 2 ^ fmt.M < 2 ^ fmt.M := Nat.mod_lt _ (by positivity)
  have hs : s.toNat ≤ 1 := by cases s <;> decide
  rw [pack_toNat]
  generalize f % 2 ^ fmt.E = x at *
  generalize t % 2 ^ fmt.M = y at *
  generalize s.toNat = z at *
  cases fmt <;> simp [Format.W, Format.E, Format.M, Format.spec] at * <;> omega

namespace Machine

/-! ### Reading operands through a port -/

@[simp] theorem classify_formatWord (fmt : Format) (w : Word) :
    classify fmt (formatWord fmt w) = classify fmt w := by simp [classify]

@[simp] theorem signBit_formatWord (fmt : Format) (w : Word) :
    signBit fmt (formatWord fmt w) = signBit fmt w := by simp [signBit]

@[simp] theorem unpack_formatWord (fmt : Format) (w : Word) :
    unpack fmt (formatWord fmt w) = unpack fmt w := by simp [unpack]

@[simp] theorem magnitude_formatWord (fmt : Format) (w : Word) :
    magnitude fmt (formatWord fmt w) = magnitude fmt w := by simp [magnitude]

@[simp] theorem rationalValue_formatWord (fmt : Format) (w : Word) :
    rationalValue fmt (formatWord fmt w) = rationalValue fmt w := by simp [rationalValue]

/-! ### The leading one and the shifters -/

theorem two_pow_msb_le {x : Nat} (h : x ≠ 0) : 2 ^ msb x ≤ x := Nat.log2_self_le h

theorem lt_two_pow_msb (x : Nat) : x < 2 ^ (msb x + 1) := Nat.lt_log2_self

@[simp] theorem shrJam_zero (m : Nat) (h st : Bool) : shrJam m h st 0 = (m, h, st) := rfl

theorem shrJam_pos (m : Nat) (h st : Bool) {d : Nat} (hd : d ≠ 0) :
    shrJam m h st d = (m / 2 ^ d, m.testBit (d - 1), st || h || decide (m % 2 ^ (d - 1) ≠ 0)) := by
  simp [shrJam, hd, Nat.shiftRight_eq_div_pow]

theorem jam_eq (x d : Nat) : jam x d = x / 2 ^ d ||| (decide (x % 2 ^ d ≠ 0)).toNat := by
  simp [jam, Nat.shiftRight_eq_div_pow]

@[simp] theorem jam_zero (x : Nat) : jam x 0 = x := by simp [jam, Nat.mod_one]

/-! ### Ordering -/

theorem order_cases (x y : Unpacked) : order x y = (x, y) ∨ order x y = (y, x) := by
  unfold order; split <;> simp

theorem alignOrder_cases (x y : Unpacked) :
    (alignOrder x y = (x, y) ∧ y.e ≤ x.e) ∨ (alignOrder x y = (y, x) ∧ x.e < y.e) := by
  unfold alignOrder
  split
  · exact .inr ⟨rfl, ‹_›⟩
  · exact .inl ⟨rfl, by omega⟩

/-! ### Rounding and finishing -/

/-- ROUND keeps the candidate or adds one. -/
theorem round_cases (m : Nat) (s h st : Bool) (rm : RoundingMode) :
    round m s h st rm = m ∨ round m s h st rm = m + 1 := by
  unfold round; cases roundInc m s h st rm <;> simp

/-- An exact candidate is never incremented, in any mode. -/
@[simp] theorem roundInc_exact (m : Nat) (s : Bool) (rm : RoundingMode) :
    roundInc m s false false rm = false := by
  cases rm <;> simp [roundInc]

@[simp] theorem clampUnderflow_s (i : Intermediate) : (clampUnderflow i).s = i.s := by
  unfold clampUnderflow; split <;> rfl

theorem clampUnderflow_be_nonneg (i : Intermediate) : 0 ≤ (clampUnderflow i).be := by
  unfold clampUnderflow; split
  · exact le_refl _
  · omega

/-- FINISH overflows, or packs the sign of the exact result with a field below EMAXF. -/
theorem finish_cases (fmt : Format) (i : Intermediate) (rm : RoundingMode) :
    finish fmt i rm = overflowResult fmt i.s rm ∨
      ∃ f t, f < fmt.emaxf ∧ t < 2 ^ fmt.M ∧ finish fmt i rm = pack fmt i.s f t := by
  unfold finish
  split
  · exact .inl rfl
  · dsimp only
    split
    · exact .inl rfl
    · refine .inr ⟨_, _, ?_, Nat.mod_lt _ (by positivity), rfl⟩
      have : 0 < fmt.emaxf := by cases fmt <;> decide
      omega

/-- An overflow gives an infinity or the largest finite word, with the sign of the exact result. -/
theorem overflowResult_cases (fmt : Format) (s : Bool) (rm : RoundingMode) :
    overflowResult fmt s rm = makeInf fmt s ∨ overflowResult fmt s rm = makeMaxFinite fmt s := by
  cases rm <;> cases s <;> simp [overflowResult]

end Machine

end Sys2Proof
end

