-- ==== Sys2Proof/Laws/State.lean ====
section
/-!
SUPPORT. One lemma per field for each update of State, so that no proof unfolds a record update.
-/

namespace Sys2Proof.Machine

variable (r : Word) (i : BitVec 1) (s : State)

/-! ### Driving the outputs -/

@[simp] theorem driveOutputs_op : (driveOutputs r i s).op = s.op := rfl
@[simp] theorem driveOutputs_fmt : (driveOutputs r i s).fmt = s.fmt := rfl
@[simp] theorem driveOutputs_rm : (driveOutputs r i s).rm = s.rm := rfl
@[simp] theorem driveOutputs_a : (driveOutputs r i s).a = s.a := rfl
@[simp] theorem driveOutputs_b : (driveOutputs r i s).b = s.b := rfl
@[simp] theorem driveOutputs_res : (driveOutputs r i s).res = r := rfl
@[simp] theorem driveOutputs_inv : (driveOutputs r i s).inv = i := rfl
@[simp] theorem driveOutputs_settled : (driveOutputs r i s).settled = true := rfl
@[simp] theorem driveOutputs_unsettledCount :
    (driveOutputs r i s).unsettledCount = s.unsettledCount := rfl

/-- Driving twice leaves the second values. -/
@[simp] theorem driveOutputs_driveOutputs (r' : Word) (i' : BitVec 1) :
    driveOutputs r i (driveOutputs r' i' s) = driveOutputs r i s := rfl

@[simp] theorem sampleControl_driveOutputs :
    sampleControl (driveOutputs r i s) = sampleControl s := rfl
@[simp] theorem operandA_driveOutputs (fmt : Format) :
    operandA fmt (driveOutputs r i s) = operandA fmt s := rfl
@[simp] theorem operandB_driveOutputs (fmt : Format) :
    operandB fmt (driveOutputs r i s) = operandB fmt s := rfl

/-! ### Presenting inputs -/

section
variable (op : BitVec 3) (fmt : BitVec 1) (rm : BitVec 2) (a b : Word)

/-- Unchanged inputs leave the whole state. -/
@[simp] theorem State.present_self : s.present s.op s.fmt s.rm s.a s.b = s := by
  simp [State.present]

@[simp] theorem State.present_op : (s.present op fmt rm a b).op = op := by
  unfold State.present; split <;> simp_all
@[simp] theorem State.present_fmt : (s.present op fmt rm a b).fmt = fmt := by
  unfold State.present; split <;> simp_all
@[simp] theorem State.present_rm : (s.present op fmt rm a b).rm = rm := by
  unfold State.present; split <;> simp_all
@[simp] theorem State.present_a : (s.present op fmt rm a b).a = a := by
  unfold State.present; split <;> simp_all
@[simp] theorem State.present_b : (s.present op fmt rm a b).b = b := by
  unfold State.present; split <;> simp_all

end

end Sys2Proof.Machine
end

