-- ==== Sys2Proof/Laws/Ops.lean ====
section
/-!
SUPPORT. What the shared operations over the ports can do, said once.
-/

namespace Sys2Proof.Machine

/-- Every instruction drives the two outputs and does nothing else: the one inversion lemma of `exec`. -/
theorem exec_drives (i : Instr) (s : State) : ∃ r v, exec i s = .next (driveOutputs r v s) := by
  cases i <;> exact ⟨_, _, rfl⟩

/-- A step drives the two outputs and does nothing else. -/
theorem step_drives (s : State) : ∃ r v, step s = .next (driveOutputs r v s) := exec_drives _ s

/-- What presenting inputs can do: nothing where they are the ones held, and else the outputs become
the next free values, not valid. -/
theorem State.present_cases (op : BitVec 3) (fmt : BitVec 1) (rm : BitVec 2) (a b : Word) (s : State) :
    (s.present op fmt rm a b = s ∧ op = s.op ∧ fmt = s.fmt ∧ rm = s.rm ∧ a = s.a ∧ b = s.b) ∨
      ((s.present op fmt rm a b).settled = false ∧
        (s.present op fmt rm a b).res = Config.unsettledRes s.unsettledCount ∧
          (s.present op fmt rm a b).inv = Config.unsettledInv s.unsettledCount ∧
            (s.present op fmt rm a b).unsettledCount = s.unsettledCount + 1) := by
  unfold State.present
  split
  · exact .inl ⟨rfl, ‹_›⟩
  · exact .inr ⟨rfl, rfl, rfl, rfl⟩

@[simp] theorem controlOp_packControl (op : BitVec 3) (fmt : BitVec 1) (rm : BitVec 2) :
    controlOp (packControl op fmt rm) = op := by
  revert op fmt rm; decide

@[simp] theorem controlFmt_packControl (op : BitVec 3) (fmt : BitVec 1) (rm : BitVec 2) :
    controlFmt (packControl op fmt rm) = fmt := by
  revert op fmt rm; decide

@[simp] theorem controlRm_packControl (op : BitVec 3) (fmt : BitVec 1) (rm : BitVec 2) :
    controlRm (packControl op fmt rm) = rm := by
  revert op fmt rm; decide

@[simp] theorem packControl_fields (c : BitVec 6) :
    packControl (controlOp c) (controlFmt c) (controlRm c) = c := by
  revert c; decide

/-- Presenting a control word puts it on the control ports. -/
@[simp] theorem sampleControl_presentControl (c : BitVec 6) (s : State) :
    sampleControl (presentControl c s) = c := by
  simp [sampleControl, presentControl]

/-- Presenting a transaction puts its control word on the control ports. -/
@[simp] theorem sampleControl_presentTransaction (x : Transaction) (s : State) :
    sampleControl (presentTransaction x s) = x.ctrl := by
  simp [sampleControl, presentTransaction]

end Sys2Proof.Machine
end

