-- ==== Sys2Proof/Laws/PerInstr.lean ====
section
/-!
SUPPORT. A family over the instructions: an encoding lies in its own row of the opcode map
(30_encoding.md R53), `(ctrl & mask) = match`, the row being the constructor's position in the table.
-/

namespace Sys2Proof.Laws.RowMatch

/-- The row of the opcode map a constructor stands for. -/
def rowIndex : Instr → Nat
  | .fpassH _ => 0
  | .fpassS _ => 1
  | .fmulH _ => 2
  | .fmulS _ => 3
  | .faddH _ => 4
  | .faddS _ => 5
  | .fsubH _ => 6
  | .fsubS _ => 7
  | .fdivH _ => 8
  | .fdivS _ => 9
  | .reserved101 _ => 10
  | .reserved11 _ => 11

/-- The rows `encode i` selects are exactly the row of `i`, under its mnemonic. -/
def Statement (i : Instr) : Prop :=
  rowsSelected (encode i) = (opcodeMap[rowIndex i]?).toList ∧
    (rowsSelected (encode i)).map (fun r => r.2.2) = [i.mnemonic]

theorem fpassH (x : BitVec 2) : Statement (.fpassH x) := by
  unfold Statement; revert x; decide
theorem fpassS (x : BitVec 2) : Statement (.fpassS x) := by
  unfold Statement; revert x; decide
theorem fmulH (rm : RoundingMode) : Statement (.fmulH rm) := by
  unfold Statement; cases rm <;> decide
theorem fmulS (rm : RoundingMode) : Statement (.fmulS rm) := by
  unfold Statement; cases rm <;> decide
theorem faddH (rm : RoundingMode) : Statement (.faddH rm) := by
  unfold Statement; cases rm <;> decide
theorem faddS (rm : RoundingMode) : Statement (.faddS rm) := by
  unfold Statement; cases rm <;> decide
theorem fsubH (rm : RoundingMode) : Statement (.fsubH rm) := by
  unfold Statement; cases rm <;> decide
theorem fsubS (rm : RoundingMode) : Statement (.fsubS rm) := by
  unfold Statement; cases rm <;> decide
theorem fdivH (rm : RoundingMode) : Statement (.fdivH rm) := by
  unfold Statement; cases rm <;> decide
theorem fdivS (rm : RoundingMode) : Statement (.fdivS rm) := by
  unfold Statement; cases rm <;> decide
theorem reserved101 (x : BitVec 3) : Statement (.reserved101 x) := by
  unfold Statement; revert x; decide
theorem reserved11 (x : BitVec 4) : Statement (.reserved11 x) := by
  unfold Statement; revert x; decide

end Sys2Proof.Laws.RowMatch
end

