-- ==== Sys2Proof/Tests/Slice0.lean ====
section
/-!
SUPPORT. Small tests: well-formedness refusals, written control words, the spec's own vectors
(95_test_vectors.md), and witnesses that statements' hypotheses can be met.
-/

namespace Sys2Proof.Tests

open Machine

/-! ### Well-formedness: each check refuses an ill-formed term -/

theorem test_spec_wf_refuses_too_wide : FormatSpec.wf ⟨11, 52, 1023⟩ = false := by decide
theorem test_spec_wf_refuses_wrong_bias : FormatSpec.wf ⟨5, 10, 16⟩ = false := by decide
theorem test_fields_wf_refuses_wide_exponent : Fields.wf .half ⟨false, 32, 0⟩ = false := by decide
theorem test_fields_wf_refuses_wide_mantissa : Fields.wf .half ⟨true, 0, 1024⟩ = false := by decide
theorem test_transaction_wf_refuses_single_field_in_half :
    DecodedTransaction.wf ⟨.faddH .tiesToEven, ⟨false, 15, 0⟩, ⟨false, 127, 0⟩⟩ = false := by decide

/-! ### Control words written out from the ctrl patterns of R53 -/

theorem test_decode_fpassH : decode 0b000010#6 = .fpassH 2 := by decide
theorem test_decode_fpassS : decode 0b000101#6 = .fpassS 1 := by decide
theorem test_decode_fmulH : decode 0b001010#6 = .fmulH .towardPositive := by decide
theorem test_decode_fmulS : decode 0b001101#6 = .fmulS .tiesToEven := by decide
theorem test_decode_faddH : decode 0b010001#6 = .faddH .tiesToEven := by decide
theorem test_decode_faddS : decode 0b010111#6 = .faddS .towardNegative := by decide
theorem test_decode_fsubH : decode 0b011000#6 = .fsubH .towardZero := by decide
theorem test_decode_fsubS : decode 0b011101#6 = .fsubS .tiesToEven := by decide
theorem test_decode_fdivH : decode 0b100001#6 = .fdivH .tiesToEven := by decide
theorem test_decode_fdivS : decode 0b100110#6 = .fdivS .towardPositive := by decide
theorem test_decode_reserved101 : decode 0b101101#6 = .reserved101 0b101 := by decide
theorem test_decode_reserved110 : decode 0b110011#6 = .reserved11 0b0011 := by decide
theorem test_decodeTableWord_fdivS : decodeTableWord 8 0x25 = some (.fdivS .tiesToEven) := by decide

/-- R49's example line, `FADD.H RNE, 0x3C00, 0x3C00`. -/
theorem test_assemble_faddH :
    assemble (.arith .add .half (.digit 1) 0x3C00 0x3C00) = ⟨0x11, 0x00003C00, 0x00003C00⟩ := by decide

/-! ### One transaction at a time -/

/-- A state with given ports and nothing on the outputs yet. -/
def ports (op : BitVec 3) (fmt : BitVec 1) (rm : BitVec 2) (a b : Word) : State :=
  { op := op, fmt := fmt, rm := rm, a := a, b := b, res := 0, inv := 0, settled := false
    unsettledCount := 0 }

/-- The outputs of one step with a control word and two operands on the ports. -/
def outputs (c : BitVec 6) (a b : Word) : Option (Word × BitVec 1) :=
  match step (ports (controlOp c) (controlFmt c) (controlRm c) a b) with
  | .next t => some (t.res, t.inv)
  | .fault r => nomatch r
  | .refused _ => none

/-- The result words in the four modes, in the order of R40; `c` has rm = 0. -/
def fourModes (c : BitVec 6) (a b : Word) : List (Option (Word × BitVec 1)) :=
  [outputs c a b, outputs (c ||| 1) a b, outputs (c ||| 2) a b, outputs (c ||| 3) a b]

/-- Four expected words with `inv` = 0. -/
def words (w x y z : Word) : List (Option (Word × BitVec 1)) :=
  [some (w, 0), some (x, 0), some (y, 0), some (z, 0)]

-- 95_test_vectors.md section 3.5
theorem test_fpassH_ignores_rm_b_and_upper_bits :
    outputs 0x03 0xABCD8001 0x12345678 = some (0x00008001, 0) := by decide
theorem test_fpassS_keeps_nan : outputs 0x05 0x7FC00001 0xFFFFFFFF = some (0x7FC00001, 0) := by decide
theorem test_reserved101 : outputs 0x2D 0x00003C00 0x00003C00 = some (0, 1) := by decide
theorem test_reserved11 : outputs 0x33 0xFFFFFFFF 0xFFFFFFFF = some (0, 1) := by decide

-- Section 3.1: M15, M4, M36, M30
theorem test_fmulH_subnormal_boundary :
    fourModes 0x08 0x07FF 0x3800 = words 0x03FF 0x0400 0x0400 0x03FF := by decide
theorem test_fmulH_tie : fourModes 0x08 0x3C01 0x3E00 = words 0x3E01 0x3E02 0x3E02 0x3E01 := by decide
theorem test_fmulS_subnormal_carry :
    fourModes 0x0C 0x007FFFFF 0x3F800001 = words 0x007FFFFF 0x00800000 0x00800000 0x007FFFFF := by
  decide
theorem test_fmulS_negative_overflow :
    fourModes 0x0C 0xFF7FFFFF 0x40000000 = words 0xFF7FFFFF 0xFF800000 0xFF7FFFFF 0xFF800000 := by
  decide

-- Section 3.2: A4, A22, A28, A31
theorem test_faddH_tie : fourModes 0x10 0x3C01 0x1000 = words 0x3C01 0x3C02 0x3C02 0x3C01 := by decide
theorem test_faddH_effective_subtract :
    fourModes 0x10 0x3C00 0x8E00 = words 0x3BFF 0x3BFF 0x3C00 0x3BFF := by decide
theorem test_faddS_overflow_by_rounding :
    fourModes 0x14 0x7F7FFFFF 0x73800000 = words 0x7F7FFFFF 0x7F800000 0x7F800000 0x7F7FFFFF := by
  decide
theorem test_faddS_cancellation :
    fourModes 0x14 0x3F800000 0xBF800000 = words 0x00000000 0x00000000 0x00000000 0x80000000 := by
  decide

-- Section 3.3: S2 (conflict C1), S11, S19, S21
theorem test_fsubH_power_of_two_minuend :
    fourModes 0x18 0x3C00 0x0E00 = words 0x3BFF 0x3BFF 0x3C00 0x3BFF := by decide
theorem test_fsubH_zero_minus_word :
    fourModes 0x18 0x0000 0x3C00 = words 0xBC00 0xBC00 0xBC00 0xBC00 := by decide
theorem test_fsubS_distance_m_plus_two :
    fourModes 0x1C 0x3F800000 0x32C00000 = words 0x3F7FFFFF 0x3F800000 0x3F800000 0x3F7FFFFF := by
  decide
theorem test_fsubS_long_cancellation :
    fourModes 0x1C 0x40000000 0x3FFFFFFF = words 0x34000000 0x34000000 0x34000000 0x34000000 := by
  decide

-- Section 3.4: V18 (conflict C2), V20, V1, V26
theorem test_fdivH_subnormal_boundary :
    fourModes 0x20 0x07FF 0x4000 = words 0x03FF 0x0400 0x0400 0x03FF := by decide
theorem test_fdivH_quotient_above_one :
    fourModes 0x20 0x3C00 0x3BFF = words 0x3C00 0x3C01 0x3C01 0x3C00 := by decide
theorem test_fdivS_one_third :
    fourModes 0x24 0x3F800000 0x40400000 = words 0x3EAAAAAA 0x3EAAAAAB 0x3EAAAAAB 0x3EAAAAAA := by
  decide
theorem test_fdivS_below_smallest_normal :
    fourModes 0x24 0x00800000 0x3F800001 = words 0x007FFFFF 0x007FFFFF 0x00800000 0x007FFFFF := by
  decide

/-! ### Witnesses: each statement's hypotheses are met by concrete states and operands

Named after the statement of Certificates/Slice0/Obligations.lean they belong to. -/

theorem witness_transactionDecodeEncode :
    DecodedTransaction.wf ⟨.fdivS .towardPositive, ⟨true, 255, 0x7FFFFF⟩, ⟨false, 0, 0⟩⟩ = true ∧
      DecodedTransaction.wf ⟨.reserved11 0, ⟨true, 31, 0x3FF⟩, ⟨false, 0, 0⟩⟩ = true := by decide

theorem witness_packPlacesItsFields :
    (31 ≤ Format.half.emaxf ∧ 0x3FF < 2 ^ Format.half.M) ∧
      (255 ≤ Format.single.emaxf ∧ 0x7FFFFF < 2 ^ Format.single.M) := by decide

theorem witness_stepRunsTheDecodedInstruction :
    packControl (ports 4 1 1 1 2).op (ports 4 1 1 1 2).fmt (ports 4 1 1 1 2).rm =
      encode (.fdivS .tiesToEven) := by decide

theorem witness_instructionsWriteOnlyTheOutputs :
    exec (.reserved101 5) (ports 5 1 1 1 2) =
      .next { ports 5 1 1 1 2 with res := 0, inv := 1, settled := true } := rfl

/-- Two states that differ in what an earlier transaction left on the outputs. -/
theorem witness_outputsDependOnInputsAlone :
    SameInputs (ports 1 0 1 0x3C00 0x3C00) { ports 1 0 1 0x3C00 0x3C00 with res := 7, inv := 1 } ∧
      (∃ t, step (ports 1 0 1 0x3C00 0x3C00) = .next t) ∧
        ∃ t, step { ports 1 0 1 0x3C00 0x3C00 with res := 7, inv := 1 } = .next t :=
  ⟨by decide, ⟨_, rfl⟩, ⟨_, rfl⟩⟩

theorem witness_transactionsAreIdempotent : ∃ t, step (ports 3 0 1 0x3C00 0x0E00) = .next t := ⟨_, rfl⟩

theorem witness_halfWordsOccupyTheLowHalf :
    (ports 2 0 1 0x3C00 0x3C00).fmt = 0 ∧
      (0xFFFF3C00 : Word).toNat % 2 ^ 16 = (ports 2 0 1 0x3C00 0x3C00).a.toNat % 2 ^ 16 ∧
        (0x12343C00 : Word).toNat % 2 ^ 16 = (ports 2 0 1 0x3C00 0x3C00).b.toNat % 2 ^ 16 ∧
          ∃ t, step (ports 2 0 1 0x3C00 0x3C00) = .next t := ⟨by decide, by decide, by decide, _, rfl⟩

theorem witness_invMarksExactlyTheReservedCodes :
    (∃ t, step (ports 6 0 0 1 2) = .next t) ∧ ∃ t, step (ports 4 0 0 1 2) = .next t :=
  ⟨⟨_, rfl⟩, ⟨_, rfl⟩⟩

theorem witness_anInputChanges :
    ¬((2 : BitVec 3) = (ports 1 0 0 1 2).op ∧ (0 : BitVec 1) = (ports 1 0 0 1 2).fmt ∧
      (0 : BitVec 2) = (ports 1 0 0 1 2).rm ∧ (1 : Word) = (ports 1 0 0 1 2).a ∧
        (2 : Word) = (ports 1 0 0 1 2).b) := by decide

/-- A state with valid outputs: FADD.H RNE of 1 and 1 has been driven. -/
def settledOne : State := { ports 2 0 1 0x3C00 0x3C00 with res := 0x4000, settled := true }

theorem witness_stepKeepsTheInvariants :
    (OutputsValid settledOne ∧ OutputsShaped settledOne) ∧ ∃ t, step settledOne = .next t :=
  ⟨by decide, _, rfl⟩

theorem witness_presentingInputsKeepsTheInvariants :
    OutputsValid settledOne ∧ OutputsShaped settledOne := by decide

theorem witness_reservedCodes :
    (ports 5 0 0 1 2).op = 0b101 ∧ (ports 6 1 0 1 2).op = 0b110 ∧ (ports 7 0 3 1 2).op = 0b111 := by
  decide

theorem witness_subnormalNormalize :
    (0 < 1 ∧ 1 < 2 ^ Format.half.M) ∧ (0 < 0x7FFFFF ∧ 0x7FFFFF < 2 ^ Format.single.M) := by decide

theorem witness_unpackIsExact :
    isFiniteNonzero (classify .half 0x0001) = true ∧ isFiniteNonzero (classify .half 0xFBFF) = true ∧
      isFiniteNonzero (classify .single 0x807FFFFF) = true ∧
        isFiniteNonzero (classify .single 0x7F7FFFFF) = true := by decide

/-- Operands at the ends of the exponent range, in either order, with unequal magnitudes. -/
theorem witness_datapathWidths :
    (isFiniteNonzero (classify .half 0x0001) = true ∧ isFiniteNonzero (classify .half 0xFBFF) = true ∧
      isFiniteNonzero (classify .single 0x00000001) = true ∧
        isFiniteNonzero (classify .single 0xFF7FFFFF) = true) ∧
    (∀ p ∈ [order (unpack .half 0x0001) (unpack .half 0xFBFF),
        order (unpack .half 0xFBFF) (unpack .half 0x0001),
        order (unpack .single 0x00000001) (unpack .single 0xFF7FFFFF)],
      ¬(p.1.e = p.2.e ∧ p.1.sig = p.2.sig)) ∧
    (0x7FF < 2 ^ (Format.half.M + 1) ∧ 0x3FFF < 2 ^ (Format.half.M + 4)) := by decide

theorem witness_shrJam :
    2 ^ Format.half.M ≤ 0x7FF ∧ 0x7FF < 2 ^ (Format.half.M + 1) ∧ 11 = Format.half.M + 1 ∧
      Format.half.M + 2 ≤ 12 := by decide

theorem witness_jam : 0 < 1 ∧ 1 < 2 ^ (Format.half.M + 4) ∧ Format.half.M + 4 ≤ 14 := by decide

theorem witness_leftNormalize : (0 < 1 ∧ 1 < 2 ^ (0 + 1)) ∧ (0 < 0x1FFD ∧ 0x1FFD < 2 ^ (13 + 1)) := by
  decide

/-- The larger operand of two (value 2 in half). -/
def two : Unpacked := ⟨false, 1, 0x400⟩

/-- The smaller operand of two (value -1.5 in half). -/
def minusOneAndAHalf : Unpacked := ⟨true, 0, 0x600⟩

theorem witness_normalisedOperands : two.Normalised .half ∧ minusOneAndAHalf.Normalised .half := by
  decide

theorem witness_orderedMagnitudes : minusOneAndAHalf.magnitude .half < two.magnitude .half := by
  norm_num [Unpacked.magnitude, two, minusOneAndAHalf, Format.M, Format.spec]

theorem witness_shortcutDistance :
    (Unpacked.mk true (-12) 0x7FF).Normalised .half ∧ (-12 : Int) + (Format.half.M + 3) ≤ two.e := by
  decide

theorem witness_finishComputesRoundExact :
    (Intermediate.mk false 15 0x400 true false).Represents .half (0x801 / 0x800) := by
  refine ⟨by decide, by decide, 0, ?_, fun _ => rfl, fun h => by simp at h⟩
  norm_num [Format.M, Format.bias, Format.spec]

theorem witness_finishComputesRoundExact_sticky :
    (Intermediate.mk true 0 0x7FF false true).Represents .half (0x1FFD / 0x8000000) := by
  refine ⟨by decide, by decide, 1 / 4, ?_, fun h => by simp at h, fun _ => by norm_num⟩
  norm_num [Format.M, Format.bias, Format.spec]

theorem witness_subnormalCarryPromotes :
    (0 : Int) ≤ 0 ∧ 0x7FF < 2 ^ (Format.half.M + 1) ∧
      (let c := clampUnderflow ⟨false, 0, 0x7FF, false, false⟩
       Machine.round c.m false c.h c.st .tiesToEven = 2 ^ Format.half.M) := by decide

/-- The classes and signs of the operand words on the ports. -/
def operandClasses (fmt : Format) (a b : Word) : (FloatClass × Bool) × (FloatClass × Bool) :=
  ((classify fmt a, signBit fmt a), (classify fmt b, signBit fmt b))

/-- One word of every class and sign in each format: each clause of the four tables of special operands
(multiply, add, subtract, divide) is met by a pair of them. -/
theorem witness_specialOperands :
    [operandClasses .half 0x7C01 0xFFFF, operandClasses .half 0x7C00 0xFC00,
      operandClasses .half 0x0000 0x8000, operandClasses .half 0x0001 0xFBFF] =
        [((.nan, false), (.nan, true)), ((.infinity, false), (.infinity, true)),
          ((.zero, false), (.zero, true)), ((.subnormal, false), (.normal, true))] ∧
    [operandClasses .single 0x7F800001 0xFFFFFFFF, operandClasses .single 0x7F800000 0xFF800000,
      operandClasses .single 0x00000000 0x80000000, operandClasses .single 0x007FFFFF 0xFF7FFFFF] =
        [((.nan, false), (.nan, true)), ((.infinity, false), (.infinity, true)),
          ((.zero, false), (.zero, true)), ((.subnormal, false), (.normal, true))] := by decide

theorem witness_bothFinite :
    BothFinite .half (ports 1 0 0 0x0001 0xFBFF) ∧
      BothFinite .single (ports 1 1 0 0x00000001 0xFF7FFFFF) := by decide

theorem witness_nonzeroSumAndDifference_half :
    BothFinite .half (ports 2 0 0 0x3C00 0xC000) ∧
      rationalValue .half 0x3C00 + rationalValue .half 0xC000 ≠ 0 ∧
        rationalValue .half 0x3C00 - rationalValue .half 0xC000 ≠ 0 := by decide +kernel

theorem witness_nonzeroSumAndDifference_single :
    BothFinite .single (ports 2 1 0 0x3F800000 0x00000001) ∧
      rationalValue .single 0x3F800000 + rationalValue .single 0x00000001 ≠ 0 ∧
        rationalValue .single 0x3F800000 - rationalValue .single 0x00000001 ≠ 0 := by decide +kernel

theorem witness_exactCancellation_half :
    BothFinite .half (ports 2 0 0 0x0001 0x8001) ∧
      rationalValue .half 0x0001 + rationalValue .half 0x8001 = 0 ∧
        BothFinite .half (ports 3 0 0 0xFBFF 0xFBFF) ∧
          rationalValue .half 0xFBFF = rationalValue .half 0xFBFF := by decide +kernel

theorem witness_exactCancellation_single :
    BothFinite .single (ports 2 1 0 0x3F800000 0xBF800000) ∧
      rationalValue .single 0x3F800000 + rationalValue .single 0xBF800000 = 0 ∧
        BothFinite .single (ports 3 1 0 1 1) ∧
          rationalValue .single 0x00000001 = rationalValue .single 0x00000001 := by decide +kernel

theorem witness_subtractIsAddOfTheFlippedWord :
    (∃ t, exec (.faddH .tiesToEven) { ports 3 0 1 0x3C00 0x0E00 with b := 0x8E00 } = .next t) ∧
      ∃ t, exec (.faddS .tiesToEven) { ports 3 1 1 0 1 with b := 0x80000001 } = .next t :=
  ⟨⟨_, rfl⟩, ⟨_, rfl⟩⟩

theorem witness_subnormalSum :
    BothFinite .half (ports 2 0 0 0x0400 0x8001) ∧
    rationalValue .half 0x0400 + rationalValue .half 0x8001 ≠ 0 ∧
      |rationalValue .half 0x0400 + rationalValue .half 0x8001| < 2 ^ Format.half.emin := by
  decide +kernel

theorem witness_multiplySign : classify .half (fmul .half .tiesToEven 0x8001 0x0001) ≠ .nan := by decide

theorem witness_nanResult :
    classify .half (fmul .half .tiesToEven 0x7C00 0x0000) = .nan ∧
      classify .single (fdiv .single .tiesToEven 0 0) = .nan ∧
        classify .half (fadd .half .tiesToEven 0x7C00 0xFC00) = .nan ∧
          classify .half (fsub .half .tiesToEven 0x7C00 0x7C00) = .nan := by decide

theorem witness_divisionByZero : divByZero (classify .half 0xBC00) (classify .half 0x0000) = true := by
  decide

end Sys2Proof.Tests
end

section
/-!
SUPPORT. Scope: the two formats (00_scope.md R4) and the frame of the instructions (10_state.md R11).
-/

namespace Sys2Proof

/-- Both formats meet the invariants of R4. -/
theorem Format.spec_wf (fmt : Format) : fmt.spec.wf = true := by
  cases fmt with
  | half => decide
  | single => decide

end Sys2Proof

namespace Sys2Proof.Machine

/-- `exec_drives` read from the next state: it is the old one with its two outputs driven. -/
theorem eq_driveOutputs_of_exec {i : Instr} {s t : State} (h : exec i s = .next t) :
    ∃ r v, t = driveOutputs r v s := by
  obtain ⟨r, v, hdrives⟩ := exec_drives i s
  have hnext : Host.Outcome.next t = .next (driveOutputs r v s) := h.symm.trans hdrives
  exact ⟨r, v, Host.Outcome.next.inj hnext⟩

end Sys2Proof.Machine

namespace Sys2Proof.Proofs.Scope

open Sys2Proof.Machine

/-- Settles O1: the literals are those of the definition, the invariants are `Format.spec_wf`. -/
theorem formatsHaveTheStatedParameters : Obligations.FormatsHaveTheStatedParameters :=
  ⟨rfl, rfl, Format.spec_wf⟩

/-- Settles O13: the next state is `driveOutputs` of the old one, whose field lemmas give the frame. -/
theorem instructionsWriteOnlyTheOutputs : Obligations.InstructionsWriteOnlyTheOutputs := by
  intro i s t h
  obtain ⟨r, v, rfl⟩ := eq_driveOutputs_of_exec h
  exact ⟨driveOutputs_op r v s, driveOutputs_fmt r v s, driveOutputs_rm r v s, driveOutputs_a r v s,
    driveOutputs_b r v s, driveOutputs_unsettledCount r v s, driveOutputs_settled r v s⟩

end Sys2Proof.Proofs.Scope
end

section
/-!
SUPPORT. State: a step drives FPCORE of the ports (10_state.md R13, 44_pass_through.md R102), and what
FPCORE answers: `inv` marks the reserved codes (R16), the result fits its format (20_memory.md R29), and
the only NaN of an arithmetic operation is the canonical one (40_datapath.md R58).
-/

namespace Sys2Proof

/-! ### Control words -/

theorem RoundingMode.ofBits_toBits (rm : RoundingMode) : RoundingMode.ofBits rm.toBits = rm := by
  cases rm <;> rfl

/-- Decoding reads back an encoded instruction: each row's pattern (30_encoding.md R53) holds its op and
format, and its free bits are those of the constructor. -/
theorem decode_encode (i : Instr) : decode (encode i) = i := by
  cases i with
  | fpassH x | fpassS x | reserved101 x | reserved11 x => revert x; decide
  | fmulH rm | fmulS rm | faddH rm | faddS rm | fsubH rm | fsubS rm | fdivH rm | fdivS rm =>
    cases rm <;> rfl

/-! ### Words that fit their format -/

theorem Format.emaxf_pos (fmt : Format) : 0 < fmt.emaxf := by cases fmt <;> decide

theorem formatWord_lt (fmt : Format) (w : Word) : (formatWord fmt w).toNat < 2 ^ fmt.W := by
  rw [formatWord_toNat]
  exact Nat.mod_lt _ (by positivity)

/-- FIELDS reads the exponent field PACK wrote. -/
theorem fields_pack_f (fmt : Format) (s : Bool) (f t : Nat) :
    (fields fmt (pack fmt s f t)).f = f % 2 ^ fmt.E := by
  have hf : f % 2 ^ fmt.E < 2 ^ fmt.E := Nat.mod_lt _ (by positivity)
  have ht : t % 2 ^ fmt.M < 2 ^ fmt.M := Nat.mod_lt _ (by positivity)
  simp only [fields, pack_toNat]
  generalize f % 2 ^ fmt.E = x at *
  generalize t % 2 ^ fmt.M = y at *
  cases fmt <;> simp only [Format.W, Format.E, Format.M, Format.spec] at * <;> omega

/-- FIELDS reads the mantissa field PACK wrote. -/
theorem fields_pack_t (fmt : Format) (s : Bool) (f t : Nat) :
    (fields fmt (pack fmt s f t)).t = t % 2 ^ fmt.M := by
  simp only [fields, pack_toNat, fmt.W_pred]
  rw [pow_add, Nat.mul_left_comm, Nat.mul_comm (f % _), Nat.add_assoc, Nat.mul_add_mod,
    Nat.mul_add_mod, Nat.mod_mod]

namespace Machine

theorem flipSign_lt (fmt : Format) {b : Word} (hb : b.toNat < 2 ^ fmt.W) :
    (flipSign fmt b).toNat < 2 ^ fmt.W := by
  have hpow : 2 ^ (fmt.W - 1) < 2 ^ fmt.W := Nat.pow_lt_pow_right (by decide) fmt.W_pred_lt
  simp only [flipSign, BitVec.toNat_xor, BitVec.toNat_ofNat]
  exact Nat.xor_lt_two_pow hb (lt_of_le_of_lt (Nat.mod_le _ _) hpow)

/-! ### NaNs -/

/-- The NaN row of R55. -/
theorem classify_eq_nan_iff (fmt : Format) (w : Word) :
    classify fmt w = .nan ↔ (fields fmt w).f = fmt.emaxf ∧ (fields fmt w).t ≠ 0 := by
  have hpos := fmt.emaxf_pos
  unfold classify
  dsimp only
  split_ifs <;> simp <;> omega

/-- A word packed with an exponent field below EMAXF is finite. -/
theorem classify_pack_ne_nan (fmt : Format) (s : Bool) {f t : Nat} (hf : f < fmt.emaxf) :
    classify fmt (pack fmt s f t) ≠ .nan := by
  rw [Ne, classify_eq_nan_iff, fields_pack_f, Nat.mod_eq_of_lt (hf.trans fmt.emaxf_lt)]
  exact fun h => hf.ne h.1

theorem classify_makeInf_ne_nan (fmt : Format) (s : Bool) : classify fmt (makeInf fmt s) ≠ .nan := by
  rw [Ne, classify_eq_nan_iff, makeInf, fields_pack_t, Nat.zero_mod]
  exact fun h => h.2 rfl

/-! ### Result words -/

/-- What every arithmetic operation answers on format words: a word of the format whose only NaN is the
canonical one. -/
def IsResultWord (fmt : Format) (w : Word) : Prop :=
  w.toNat < 2 ^ fmt.W ∧ (classify fmt w = .nan → w = makeNan fmt)

theorem isResultWord_of_ne_nan {fmt : Format} {w : Word} (hlt : w.toNat < 2 ^ fmt.W)
    (hnan : classify fmt w ≠ .nan) : IsResultWord fmt w :=
  ⟨hlt, fun h => absurd h hnan⟩

theorem makeNan_isResultWord (fmt : Format) : IsResultWord fmt (makeNan fmt) :=
  ⟨pack_lt .., fun _ => rfl⟩

theorem makeInf_isResultWord (fmt : Format) (s : Bool) : IsResultWord fmt (makeInf fmt s) :=
  isResultWord_of_ne_nan (pack_lt ..) (classify_makeInf_ne_nan fmt s)

theorem pack_isResultWord (fmt : Format) (s : Bool) {f t : Nat} (hf : f < fmt.emaxf) :
    IsResultWord fmt (pack fmt s f t) :=
  isResultWord_of_ne_nan (pack_lt ..) (classify_pack_ne_nan fmt s hf)

theorem makeZero_isResultWord (fmt : Format) (s : Bool) : IsResultWord fmt (makeZero fmt s) :=
  pack_isResultWord fmt s fmt.emaxf_pos

theorem makeMaxFinite_isResultWord (fmt : Format) (s : Bool) :
    IsResultWord fmt (makeMaxFinite fmt s) :=
  pack_isResultWord fmt s (Nat.sub_lt fmt.emaxf_pos Nat.one_pos)

theorem overflowResult_isResultWord (fmt : Format) (s : Bool) (rm : RoundingMode) :
    IsResultWord fmt (overflowResult fmt s rm) := by
  rcases overflowResult_cases fmt s rm with h | h <;> rw [h]
  · exact makeInf_isResultWord fmt s
  · exact makeMaxFinite_isResultWord fmt s

/-- FINISH never makes a NaN: it overflows, or packs an exponent field below EMAXF. -/
theorem finish_isResultWord (fmt : Format) (i : Intermediate) (rm : RoundingMode) :
    IsResultWord fmt (finish fmt i rm) := by
  rcases finish_cases fmt i rm with h | ⟨f, t, hf, -, h⟩ <;> rw [h]
  · exact overflowResult_isResultWord fmt i.s rm
  · exact pack_isResultWord fmt i.s hf

theorem addKernel_isResultWord (fmt : Format) (rm : RoundingMode) (a b : Word) :
    IsResultWord fmt (addKernel fmt rm a b) := by
  unfold addKernel
  dsimp only
  split
  · exact finish_isResultWord ..
  · unfold magSub
    dsimp only
    split
    · exact makeZero_isResultWord ..
    · exact finish_isResultWord ..

/-! ### The four operations -/

variable (fmt : Format) (rm : RoundingMode) (a b : Word)

theorem fmul_isResultWord : IsResultWord fmt (fmul fmt rm a b) := by
  unfold fmul
  dsimp only
  split
  case h_1 | h_2 | h_3 | h_4 => exact makeNan_isResultWord fmt
  case h_5 | h_6 => exact makeInf_isResultWord ..
  case h_7 | h_8 => exact makeZero_isResultWord ..
  case h_9 => exact finish_isResultWord ..

theorem fdiv_isResultWord : IsResultWord fmt (fdiv fmt rm a b) := by
  unfold fdiv
  dsimp only
  split
  case h_1 | h_2 | h_3 | h_4 => exact makeNan_isResultWord fmt
  case h_5 | h_6 => exact makeInf_isResultWord ..
  case h_7 | h_8 => exact makeZero_isResultWord ..
  case h_9 => exact finish_isResultWord ..

/-- What FADD can answer (42_add_subtract.md R82): a word it makes, or the operand beside a zero
unchanged, which is then no NaN. -/
theorem fadd_cases :
    IsResultWord fmt (fadd fmt rm a b) ∨ (fadd fmt rm a b = a ∧ classify fmt a ≠ .nan) ∨
      (fadd fmt rm a b = b ∧ classify fmt b ≠ .nan) := by
  unfold fadd
  dsimp only
  split
  case h_1 | h_2 => exact .inl (makeNan_isResultWord fmt)
  case h_3 =>
    left
    split
    · exact makeNan_isResultWord fmt
    · exact makeInf_isResultWord ..
  case h_4 | h_5 => exact .inl (makeInf_isResultWord ..)
  case h_6 => left; split <;> exact makeZero_isResultWord ..
  case h_7 _ hnan _ _ => exact .inr (.inr ⟨rfl, hnan⟩)
  case h_8 _ hnan _ _ => exact .inr (.inl ⟨rfl, hnan⟩)
  case h_9 => exact .inl (addKernel_isResultWord ..)

variable {a b}

theorem fadd_isResultWord (ha : a.toNat < 2 ^ fmt.W) (hb : b.toNat < 2 ^ fmt.W) :
    IsResultWord fmt (fadd fmt rm a b) := by
  rcases fadd_cases fmt rm a b with h | ⟨h, hnan⟩ | ⟨h, hnan⟩
  · exact h
  · rw [h]; exact isResultWord_of_ne_nan ha hnan
  · rw [h]; exact isResultWord_of_ne_nan hb hnan

theorem fsub_isResultWord (ha : a.toNat < 2 ^ fmt.W) (hb : b.toNat < 2 ^ fmt.W) :
    IsResultWord fmt (fsub fmt rm a b) :=
  fadd_isResultWord fmt rm ha (flipSign_lt fmt hb)

end Machine

end Sys2Proof

namespace Sys2Proof.Machine

/-! ### FPCORE by the value of op (R102) -/

/-- The three kinds of op (R38): pass-through, the four arithmetic operations, reserved. -/
theorem opcode_cases (op : BitVec 3) :
    op.toNat = 0 ∨ (1 ≤ op.toNat ∧ op.toNat ≤ 4) ∨ 5 ≤ op.toNat := by omega

section
variable {op : BitVec 3} (fmt : BitVec 1) (rm : BitVec 2) (a b : Word)

theorem fpcore_pass (h : op.toNat = 0) :
    fpcore op fmt rm a b = (formatWord (.ofBits fmt) a, 0) := by
  simp [fpcore, h]

theorem fpcore_mul (h : op.toNat = 1) :
    fpcore op fmt rm a b =
      (fmul (.ofBits fmt) (.ofBits rm) (formatWord (.ofBits fmt) a) (formatWord (.ofBits fmt) b), 0) := by
  simp [fpcore, h]

theorem fpcore_add (h : op.toNat = 2) :
    fpcore op fmt rm a b =
      (fadd (.ofBits fmt) (.ofBits rm) (formatWord (.ofBits fmt) a) (formatWord (.ofBits fmt) b), 0) := by
  simp [fpcore, h]

theorem fpcore_sub (h : op.toNat = 3) :
    fpcore op fmt rm a b =
      (fsub (.ofBits fmt) (.ofBits rm) (formatWord (.ofBits fmt) a) (formatWord (.ofBits fmt) b), 0) := by
  simp [fpcore, h]

theorem fpcore_div (h : op.toNat = 4) :
    fpcore op fmt rm a b =
      (fdiv (.ofBits fmt) (.ofBits rm) (formatWord (.ofBits fmt) a) (formatWord (.ofBits fmt) b), 0) := by
  simp [fpcore, h]

theorem fpcore_reserved (h : 5 ≤ op.toNat) : fpcore op fmt rm a b = (0, 1) := by
  unfold fpcore
  dsimp only
  split
  case h_1 | h_2 | h_3 | h_4 | h_5 => omega
  case h_6 => rfl

/-- A multiply, add, subtract or divide leaves `inv` at 0 and answers a result word. -/
theorem fpcore_arith (h1 : 1 ≤ op.toNat) (h4 : op.toNat ≤ 4) :
    (fpcore op fmt rm a b).2 = 0 ∧ IsResultWord (.ofBits fmt) (fpcore op fmt rm a b).1 := by
  have hop : op.toNat = 1 ∨ op.toNat = 2 ∨ op.toNat = 3 ∨ op.toNat = 4 := by omega
  rcases hop with hop | hop | hop | hop
  · rw [fpcore_mul _ _ _ _ hop]
    exact ⟨rfl, fmul_isResultWord ..⟩
  · rw [fpcore_add _ _ _ _ hop]
    exact ⟨rfl, fadd_isResultWord _ _ (formatWord_lt ..) (formatWord_lt ..)⟩
  · rw [fpcore_sub _ _ _ _ hop]
    exact ⟨rfl, fsub_isResultWord _ _ (formatWord_lt ..) (formatWord_lt ..)⟩
  · rw [fpcore_div _ _ _ _ hop]
    exact ⟨rfl, fdiv_isResultWord ..⟩

/-- `inv` is 1 exactly for the reserved codes (R16). -/
theorem fpcore_inv_eq_one_iff : (fpcore op fmt rm a b).2 = 1 ↔ 5 ≤ op.toNat := by
  rcases opcode_cases op with hop | ⟨h1, h4⟩ | hop
  · simp [fpcore_pass _ _ _ _ hop, hop]
  · obtain ⟨hinv, -⟩ := fpcore_arith fmt rm a b h1 h4
    rw [hinv]
    exact iff_of_false (by decide) (by omega)
  · simp [fpcore_reserved _ _ _ _ hop, hop]

/-- The result fits the selected format (R29). -/
theorem fpcore_res_lt : (fpcore op fmt rm a b).1.toNat < 2 ^ (Format.ofBits fmt).W := by
  rcases opcode_cases op with hop | ⟨h1, h4⟩ | hop
  · rw [fpcore_pass _ _ _ _ hop]
    exact formatWord_lt ..
  · obtain ⟨-, hlt, -⟩ := fpcore_arith fmt rm a b h1 h4
    exact hlt
  · simp [fpcore_reserved _ _ _ _ hop]

/-- A half result is zero-extended from bit 16 (R16). -/
theorem fpcore_res_lt_of_half {fmt : BitVec 1} (h : fmt = 0) :
    (fpcore op fmt rm a b).1.toNat < 2 ^ 16 := by
  subst h
  exact fpcore_res_lt 0 rm a b

end

/-! ### The step -/

/-- Running a decoded control word drives FPCORE of its fields: decoding and R102's case on op select
the same operation, row by row. -/
theorem exec_decode (c : BitVec 6) (s : State) :
    exec (decode c) s = .next (driveOutputs
      (fpcore (controlOp c) (controlFmt c) (controlRm c) s.a s.b).1
      (fpcore (controlOp c) (controlFmt c) (controlRm c) s.a s.b).2 s) := by
  unfold decode
  split
  case h_1 hop hfmt | h_2 hop hfmt => rw [fpcore_pass _ _ _ _ hop, hfmt]; rfl
  case h_3 hop hfmt | h_4 hop hfmt => rw [fpcore_mul _ _ _ _ hop, hfmt]; rfl
  case h_5 hop hfmt | h_6 hop hfmt => rw [fpcore_add _ _ _ _ hop, hfmt]; rfl
  case h_7 hop hfmt | h_8 hop hfmt => rw [fpcore_sub _ _ _ _ hop, hfmt]; rfl
  case h_9 hop hfmt | h_10 hop hfmt => rw [fpcore_div _ _ _ _ hop, hfmt]; rfl
  case h_11 hop => rw [fpcore_reserved _ _ _ _ hop.ge]; rfl
  case h_12 =>
    -- In either format the rows before this one take every op below 6.
    have hop : 5 ≤ (controlOp c).toNat := by
      cases hfmt : Format.ofBits (controlFmt c) <;> grind
    rw [fpcore_reserved _ _ _ _ hop]; rfl

/-- What a step does, in full (R102). -/
theorem step_eq (s : State) :
    step s = .next (driveOutputs (fpcore s.op s.fmt s.rm s.a s.b).1
      (fpcore s.op s.fmt s.rm s.a s.b).2 s) := by
  simp only [step, exec_decode, sampleControl, controlOp_packControl, controlFmt_packControl,
    controlRm_packControl]

/-- `step_eq` read from the next state. -/
theorem eq_driveOutputs_of_step {s t : State} (h : step s = .next t) :
    t = driveOutputs (fpcore s.op s.fmt s.rm s.a s.b).1 (fpcore s.op s.fmt s.rm s.a s.b).2 s :=
  Host.Outcome.next.inj (h.symm.trans (step_eq s))

/-- The reserved codes of R38 as numbers. -/
theorem five_le_toNat_iff (op : BitVec 3) :
    5 ≤ op.toNat ↔ op = 0b101 ∨ op = 0b110 ∨ op = 0b111 := by
  revert op; decide

end Sys2Proof.Machine

namespace Sys2Proof.Proofs.State

open Sys2Proof.Machine

/-- Settles O10: the sampled control word is the encoding, and decoding it gives the instruction back. -/
theorem stepRunsTheDecodedInstruction : Obligations.StepRunsTheDecodedInstruction := by
  intro i s hctrl
  have hsample : sampleControl s = encode i := hctrl
  rw [step, hsample, decode_encode]

/-- Settles O14: `step_eq`, whose `driveOutputs` is the record update of the statement. -/
theorem stepDrivesFpcoreOfThePorts : Obligations.StepDrivesFpcoreOfThePorts := step_eq

/-- Settles O15: both outputs are FPCORE of the five input ports. -/
theorem outputsDependOnInputsAlone : Obligations.OutputsDependOnInputsAlone := by
  intro s t s' t' ⟨hop, hfmt, hrm, ha, hb⟩ hs ht
  rw [eq_driveOutputs_of_step hs, eq_driveOutputs_of_step ht, hop, hfmt, hrm, ha, hb]
  exact ⟨rfl, rfl⟩

/-- Settles O18, from what FPCORE answers on `inv` and the width of its result. -/
theorem invMarksExactlyTheReservedCodes : Obligations.InvMarksExactlyTheReservedCodes := by
  intro s t h
  rw [eq_driveOutputs_of_step h]
  refine ⟨?_, fun hhalf => ?_⟩
  · rw [driveOutputs_inv, fpcore_inv_eq_one_iff, five_le_toNat_iff]
  · exact Nat.div_eq_of_lt (fpcore_res_lt_of_half _ _ _ hhalf)

/-- Settles O21: a step overwrites both outputs with FPCORE of the ports, so the invariants of the next
state are the properties of FPCORE, clause by clause, whatever the outputs held before. -/
theorem stepKeepsTheInvariants : Obligations.StepKeepsTheInvariants := by
  intro s t _ h
  rw [eq_driveOutputs_of_step h]
  refine ⟨fun _ => rfl, fun _ => ⟨fpcore_inv_eq_one_iff .., fun hinv => ?_, fun hhalf => ?_,
    fun h1 h4 hnan => ?_⟩⟩
  · have hop : 5 ≤ s.op.toNat := (fpcore_inv_eq_one_iff ..).mp hinv
    rw [driveOutputs_res, fpcore_reserved _ _ _ _ hop]
  · exact fpcore_res_lt_of_half _ _ _ hhalf
  · obtain ⟨-, -, hcanon⟩ := fpcore_arith s.fmt s.rm s.a s.b h1 h4
    exact hcanon hnan

end Sys2Proof.Proofs.State
end

section
/-!
SUPPORT. Memory: a step reads the input ports only, so its outcome repeats (20_memory.md R31), and of an
operand port it reads the format word only (R29).
-/

namespace Sys2Proof

/-- Two ports hold the same format word exactly when they agree on their low `W` bits (R29). -/
theorem formatWord_eq_iff (fmt : Format) (v w : Word) :
    formatWord fmt v = formatWord fmt w ↔ v.toNat % 2 ^ fmt.W = w.toNat % 2 ^ fmt.W := by
  rw [← BitVec.toNat_inj, formatWord_toNat, formatWord_toNat]

/-- A single word fills its port (R29). -/
theorem formatWord_single (w : Word) : formatWord .single w = w :=
  BitVec.eq_of_toNat_eq <| (formatWord_toNat .single w).trans (Nat.mod_eq_of_lt w.isLt)

end Sys2Proof

namespace Sys2Proof.Machine

/-- FPCORE reads only the format words of its operand ports (R29). -/
theorem fpcore_congr_formatWord (op : BitVec 3) {fmt : BitVec 1} (rm : BitVec 2) {a a' b b' : Word}
    (ha : formatWord (.ofBits fmt) a' = formatWord (.ofBits fmt) a)
    (hb : formatWord (.ofBits fmt) b' = formatWord (.ofBits fmt) b) :
    fpcore op fmt rm a' b' = fpcore op fmt rm a b := by
  simp only [fpcore, ha, hb]

/-- A step does not read the outputs it overwrites (10_state.md R13). -/
theorem step_driveOutputs (r : Word) (i : BitVec 1) (s : State) :
    step (driveOutputs r i s) = step s := by
  simp only [step_eq, driveOutputs_op, driveOutputs_fmt, driveOutputs_rm, driveOutputs_a, driveOutputs_b,
    driveOutputs_driveOutputs]

end Sys2Proof.Machine

namespace Sys2Proof.Proofs.Memory

open Sys2Proof.Machine

/-- Settles O16: the step has only driven the outputs, and the next step does not read them. -/
theorem transactionsAreIdempotent : Obligations.TransactionsAreIdempotent := by
  intro s t h
  obtain ⟨r, v, rfl⟩ := eq_driveOutputs_of_exec h
  rw [step_driveOutputs]
  exact h

/-- Settles O17: with half selected the two states have the same format words on `a` and `b`, hence the
same FPCORE, whose result fits 16 bits; a single word is its port. -/
theorem halfWordsOccupyTheLowHalfOfThePorts : Obligations.HalfWordsOccupyTheLowHalfOfThePorts := by
  refine ⟨fun s s' a b hhalf ha hb h => ?_, fun s s' hhalf h => ?_, formatWord_single⟩
  · have hfmt : Format.ofBits s.fmt = .half := by rw [hhalf]; rfl
    have hcore : fpcore s.op s.fmt s.rm a b = fpcore s.op s.fmt s.rm s.a s.b := by
      refine fpcore_congr_formatWord s.op s.rm ?_ ?_ <;> rw [hfmt, formatWord_eq_iff]
      · exact ha
      · exact hb
    rw [step_eq, eq_driveOutputs_of_step h, hcore]
    rfl
  · rw [eq_driveOutputs_of_step h, driveOutputs_res]
    exact fpcore_res_lt_of_half _ _ _ hhalf

end Sys2Proof.Proofs.Memory
end

section
/-!
SUPPORT. Encoding: control words, operand words and transactions read back as they were written
(30_encoding.md R36 to R41, R53), assembly lines (R49), the values of the notable words (R44, R45), and
exact rounding of a word that is already representable (40_datapath.md R71).
-/

namespace Sys2Proof

/-! ### Control words (R37, R53) -/

theorem packControl_toNat (op : BitVec 3) (fmt : BitVec 1) (rm : BitVec 2) :
    (packControl op fmt rm).toNat = op.toNat * 8 + fmt.toNat * 4 + rm.toNat := by
  rw [packControl, BitVec.toNat_append, BitVec.toNat_append, ← Nat.shiftLeft_add_eq_or_of_lt fmt.isLt,
    ← Nat.shiftLeft_add_eq_or_of_lt rm.isLt, Nat.shiftLeft_eq, Nat.shiftLeft_eq]
  omega

theorem controlOp_toNat (c : BitVec 6) : (controlOp c).toNat = c.toNat / 8 := by
  rw [controlOp, BitVec.extractLsb'_toNat, Nat.shiftRight_eq_div_pow]
  omega

theorem controlFmt_toNat (c : BitVec 6) : (controlFmt c).toNat = c.toNat / 4 % 2 := by
  rw [controlFmt, BitVec.extractLsb'_toNat, Nat.shiftRight_eq_div_pow]

theorem controlRm_toNat (c : BitVec 6) : (controlRm c).toNat = c.toNat % 4 := by
  rw [controlRm, BitVec.extractLsb'_toNat, Nat.shiftRight_zero]

/-- The row a control word selects depends on op and fmt only; rm is its operand or ignored (R38 to R40). -/
theorem decode_mnemonic_congr {c c' : BitVec 6} (hop : controlOp c = controlOp c')
    (hfmt : controlFmt c = controlFmt c') : (decode c).mnemonic = (decode c').mnemonic := by
  unfold decode
  rw [hop, hfmt]
  split <;> rfl

/-- No bit of the 64 control words is lost in decoding: the constructor keeps what its row ignores (R53). -/
theorem encode_decode (c : BitVec 6) : encode (decode c) = c := by
  revert c; decide

namespace Laws.RowMatch

/-- The family, row by row. -/
theorem statement (i : Instr) : Statement i := by
  cases i with
  | fpassH x => exact fpassH x
  | fpassS x => exact fpassS x
  | fmulH rm => exact fmulH rm
  | fmulS rm => exact fmulS rm
  | faddH rm => exact faddH rm
  | faddS rm => exact faddS rm
  | fsubH rm => exact fsubH rm
  | fsubS rm => exact fsubS rm
  | fdivH rm => exact fdivH rm
  | fdivS rm => exact fdivS rm
  | reserved101 x => exact reserved101 x
  | reserved11 x => exact reserved11 x

end Laws.RowMatch

/-! ### Operand words (R41, 40_datapath.md R54, R70) -/

/-- FIELDS reads the sign PACK wrote, above an exponent and mantissa that fit below bit `W - 1`. -/
theorem fields_pack_s (fmt : Format) (s : Bool) (f t : Nat) :
    (fields fmt (pack fmt s f t)).s = s := by
  have hf : f % 2 ^ fmt.E < 2 ^ fmt.E := Nat.mod_lt _ (by positivity)
  have ht : t % 2 ^ fmt.M < 2 ^ fmt.M := Nat.mod_lt _ (by positivity)
  have hlow : f % 2 ^ fmt.E * 2 ^ fmt.M + t % 2 ^ fmt.M < 2 ^ (fmt.W - 1) := by
    have hstep : (f % 2 ^ fmt.E + 1) * 2 ^ fmt.M ≤ 2 ^ fmt.E * 2 ^ fmt.M := Nat.mul_le_mul_right _ hf
    rw [fmt.W_pred, pow_add, Nat.mul_comm (2 ^ fmt.M)]
    rw [Nat.add_one_mul] at hstep
    omega
  simp only [fields, pack_toNat]
  rw [Nat.add_assoc, Nat.mul_comm s.toNat, Nat.testBit_two_pow_mul_add _ hlow]
  cases s <;> simp

/-- FIELDS gives back what PACK placed, under PACK's precondition. -/
theorem fields_pack {fmt : Format} (s : Bool) {f t : Nat} (hf : f ≤ fmt.emaxf) (ht : t < 2 ^ fmt.M) :
    fields fmt (pack fmt s f t) = ⟨s, f, t⟩ := by
  have hE : f < 2 ^ fmt.E := hf.trans_lt fmt.emaxf_lt
  rw [Fields.mk.injEq, fields_pack_s, fields_pack_f, fields_pack_t, Nat.mod_eq_of_lt hE,
    Nat.mod_eq_of_lt ht]
  exact ⟨rfl, rfl, rfl⟩

theorem Fields.wf_iff (fmt : Format) (x : Fields) :
    x.wf fmt = true ↔ x.f ≤ fmt.emaxf ∧ x.t < 2 ^ fmt.M := by
  simp [Fields.wf]

theorem fields_packFields {fmt : Format} {x : Fields} (h : x.wf fmt = true) :
    fields fmt (packFields fmt x) = x := by
  obtain ⟨hf, ht⟩ := (Fields.wf_iff fmt x).mp h
  exact fields_pack x.s hf ht

/-- PACK of a word's fields is its format word: the three fields are all of its low `W` bits. -/
theorem packFields_fields (fmt : Format) (w : Word) : packFields fmt (fields fmt w) = formatWord fmt w := by
  have hW : 2 ^ fmt.W = 2 ^ fmt.M * 2 ^ fmt.E * 2 := by cases fmt <;> rfl
  apply BitVec.eq_of_toNat_eq
  rw [packFields, pack_toNat, formatWord_toNat, hW, Nat.mod_mul, Nat.mod_mul]
  simp only [fields, fmt.W_pred, Nat.toNat_testBit, pow_add, Nat.mod_mod]
  ring

namespace Machine

/-! ### Classes and values of words (R44, 40_datapath.md R55) -/

/-- The words that reach the kernels, by their exponent and mantissa fields. -/
theorem isFiniteNonzero_classify_iff (fmt : Format) (w : Word) :
    isFiniteNonzero (classify fmt w) = true ↔
      ((fields fmt w).f = 0 ∧ (fields fmt w).t ≠ 0) ∨
        (0 < (fields fmt w).f ∧ (fields fmt w).f < fmt.emaxf) := by
  have hpos := fmt.emaxf_pos
  have hle := fields_f_le fmt w
  unfold classify
  dsimp only
  split_ifs <;> simp [isFiniteNonzero] <;> omega

theorem magnitude_of_f_eq_zero {fmt : Format} {w : Word} (h : (fields fmt w).f = 0) :
    magnitude fmt w = (fields fmt w).t * quantum fmt (1 - fmt.bias) := by
  simp [magnitude, quantum, h]

theorem magnitude_of_f_pos {fmt : Format} {w : Word} (h : 0 < (fields fmt w).f) :
    magnitude fmt w =
      (2 ^ fmt.M + (fields fmt w).t : ℕ) * quantum fmt ((fields fmt w).f - fmt.bias) := by
  simp [magnitude, quantum, h.ne']

section
variable (fmt : Format) (s : Bool)

theorem numericValue_makeZero : numericValue fmt (makeZero fmt s) = .zero s := by
  have hfields : fields fmt (makeZero fmt s) = ⟨s, 0, 0⟩ := fields_pack s (Nat.zero_le _) (by positivity)
  simp [numericValue, classify, signBit, hfields]

theorem numericValue_makeInf : numericValue fmt (makeInf fmt s) = .infinity s := by
  have hfields : fields fmt (makeInf fmt s) = ⟨s, fmt.emaxf, 0⟩ := fields_pack s le_rfl (by positivity)
  simp [numericValue, classify, signBit, hfields, fmt.emaxf_pos.ne']

theorem numericValue_makeNan : numericValue fmt (makeNan fmt) = .notANumber := by
  have hnan : classify fmt (makeNan fmt) = .nan := by cases fmt <;> rfl
  rw [numericValue, hnan]

theorem numericValue_pack_subnormal (t : Nat) (ht0 : t ≠ 0) (ht : t < 2 ^ fmt.M) :
    numericValue fmt (pack fmt s 0 t) = .finite (signFactor s * (t * quantum fmt (1 - fmt.bias))) := by
  have hfields : fields fmt (pack fmt s 0 t) = ⟨s, 0, t⟩ := fields_pack s (Nat.zero_le _) ht
  have hmag := magnitude_of_f_eq_zero (congrArg Fields.f hfields)
  simp [numericValue, classify, signBit, rationalValue, hfields, hmag, ht0]

theorem numericValue_pack_normal (f t : Nat) (hf0 : 0 < f) (hf : f < fmt.emaxf)
    (ht : t < 2 ^ fmt.M) :
    numericValue fmt (pack fmt s f t) =
      .finite (signFactor s * ((2 ^ fmt.M + t : ℕ) * quantum fmt (f - fmt.bias))) := by
  have hfields : fields fmt (pack fmt s f t) = ⟨s, f, t⟩ := fields_pack s hf.le ht
  have hmag := magnitude_of_f_pos (w := pack fmt s f t) (by rw [hfields]; exact hf0)
  simp [numericValue, classify, signBit, rationalValue, hfields, hmag, hf0.ne', hf.ne]

end

/-! ### Exact rounding of a representable magnitude (40_datapath.md R71) -/

theorem quantum_pos (fmt : Format) (e : Int) : 0 < quantum fmt e := zpow_pos (by norm_num) _

/-- `2^M` quanta at `e` make `2^e`. -/
theorem two_pow_mul_quantum (fmt : Format) (e : Int) : 2 ^ fmt.M * quantum fmt e = 2 ^ e := by
  rw [quantum, ← zpow_natCast, ← zpow_add₀ two_ne_zero]
  congr 1
  omega

/-- A normalised significand at `e` is rounded at `e`. -/
theorem roundExponent_normalised {fmt : Format} {n : Nat} {e : Int} (he : 1 - (fmt.bias : Int) ≤ e)
    (hlo : 2 ^ fmt.M ≤ n) (hhi : n < 2 ^ (fmt.M + 1)) :
    roundExponent fmt (n * quantum fmt e) = e := by
  have hq := quantum_pos fmt e
  have hn : (0 : ℚ) < n := by exact_mod_cast (Nat.two_pow_pos _).trans_le hlo
  have hle : e ≤ Int.log 2 (n * quantum fmt e) := by
    rw [← Int.zpow_le_iff_le_log one_lt_two (by positivity), Nat.cast_ofNat, ← two_pow_mul_quantum fmt e]
    gcongr
    exact_mod_cast hlo
  have hlt : Int.log 2 (n * quantum fmt e) < e + 1 := by
    rw [← Int.lt_zpow_iff_log_lt one_lt_two (by positivity), Nat.cast_ofNat, zpow_add_one₀ two_ne_zero,
      ← two_pow_mul_quantum fmt e, mul_right_comm, ← pow_succ]
    gcongr
    exact_mod_cast hhi
  rw [roundExponent, max_eq_left (by omega)]
  omega

/-- A smaller significand at the least exponent is rounded there: the subnormal quantum is fixed. -/
theorem roundExponent_subnormal {fmt : Format} {n : Nat} (hpos : n ≠ 0) (hhi : n < 2 ^ fmt.M) :
    roundExponent fmt (n * quantum fmt (1 - fmt.bias)) = 1 - fmt.bias := by
  have hq := quantum_pos fmt (1 - fmt.bias)
  have hlt : Int.log 2 (n * quantum fmt (1 - fmt.bias)) < 1 - fmt.bias := by
    rw [← Int.lt_zpow_iff_log_lt one_lt_two (by positivity), Nat.cast_ofNat,
      ← two_pow_mul_quantum fmt (1 - fmt.bias)]
    gcongr
    exact_mod_cast hhi
  exact max_eq_right hlt.le

/-- ROUND_EXACT of a whole number of quanta discards nothing: no mode increments, and the significand is
packed as it is. -/
theorem roundExact_of_whole {fmt : Format} {n : Nat} {e : Int} (s : Bool) (rm : RoundingMode)
    (he : roundExponent fmt (n * quantum fmt e) = e) (hhi : n < 2 ^ (fmt.M + 1)) :
    roundExact fmt s (n * quantum fmt e) rm =
      if 2 ^ fmt.M ≤ n then
        if fmt.emaxf ≤ (e + fmt.bias).toNat then overflowResult fmt s rm
        else pack fmt s (e + fmt.bias).toNat (n - 2 ^ fmt.M)
      else pack fmt s 0 n := by
  have hwhole : n * quantum fmt e / quantum fmt e = n := mul_div_cancel_right₀ _ (quantum_pos fmt e).ne'
  have hhalf : decide ((1 : ℚ) / 2 ≤ 0) = false := by norm_num
  simp only [roundExact, he, hwhole, Int.floor_natCast, Int.toNat_natCast, sub_self, hhalf, ne_eq,
    not_true_eq_false, decide_false, Bool.false_and, roundInc_exact, Bool.toNat_false, add_zero,
    if_neg hhi.ne]
  split
  · rfl
  · exact if_neg (not_le.mpr fmt.emaxf_pos)

theorem roundExact_normal {fmt : Format} {f t : Nat} (s : Bool) (rm : RoundingMode) (hf0 : 0 < f)
    (hf : f < fmt.emaxf) (ht : t < 2 ^ fmt.M) :
    roundExact fmt s ((2 ^ fmt.M + t : ℕ) * quantum fmt (f - fmt.bias)) rm = pack fmt s f t := by
  have hhi : 2 ^ fmt.M + t < 2 ^ (fmt.M + 1) := by rw [pow_succ]; omega
  have he : 1 - (fmt.bias : Int) ≤ f - fmt.bias := by omega
  have hfield : ((f : Int) - fmt.bias + fmt.bias).toNat = f := by omega
  rw [roundExact_of_whole s rm (roundExponent_normalised he (Nat.le_add_right _ _) hhi) hhi,
    if_pos (Nat.le_add_right _ _), hfield, if_neg (not_le.mpr hf), Nat.add_sub_cancel_left]

theorem roundExact_subnormal {fmt : Format} {t : Nat} (s : Bool) (rm : RoundingMode) (ht0 : t ≠ 0)
    (ht : t < 2 ^ fmt.M) :
    roundExact fmt s (t * quantum fmt (1 - fmt.bias)) rm = pack fmt s 0 t := by
  have hhi : t < 2 ^ (fmt.M + 1) := by rw [pow_succ]; omega
  rw [roundExact_of_whole s rm (roundExponent_subnormal ht0 ht) hhi, if_neg (not_le.mpr ht)]

/-! ### Presenting a transaction (R36) -/

@[simp] theorem presentTransaction_a (x : Transaction) (s : State) : (presentTransaction x s).a = x.a :=
  State.present_a ..

@[simp] theorem presentTransaction_b (x : Transaction) (s : State) : (presentTransaction x s).b = x.b :=
  State.present_b ..

end Machine

end Sys2Proof

namespace Sys2Proof.Proofs.Encoding

open Sys2Proof.Machine

/-- Settles O7: the control word gives back the instruction, hence the format both operand words were
packed in, and FIELDS undoes PACK in that format. -/
theorem transactionDecodeEncodeAgree : Obligations.TransactionDecodeEncodeAgree := by
  intro d hwf
  obtain ⟨ha, hb⟩ : d.a.wf d.instr.format = true ∧ d.b.wf d.instr.format = true := by
    simpa [DecodedTransaction.wf] using hwf
  simp only [decodeTransaction, encodeTransaction, decode_encode, fields_packFields ha,
    fields_packFields hb]

/-- Settles O11: the sampled control word is the presented encoding, which decodes to the instruction. -/
theorem presentedTransactionRunsNext : Obligations.PresentedTransactionRunsNext := by
  intro i a b s
  refine ⟨?_, presentTransaction_a .., presentTransaction_b ..⟩
  rw [step, sampleControl_presentTransaction, decode_encode]

/-- Settles O45: the magnitude is a whole number of quanta at the exponent R71 rounds at, so rounding
packs the word's own fields again. -/
theorem roundExactFixesRepresentableValues : Obligations.RoundExactFixesRepresentableValues := by
  intro fmt w rm hfin
  rw [← packFields_fields]
  rcases (isFiniteNonzero_classify_iff fmt w).mp hfin with ⟨hf, ht⟩ | ⟨hf0, hf⟩
  · rw [magnitude_of_f_eq_zero hf, roundExact_subnormal _ rm ht (fields_t_lt fmt w), packFields, hf]
    rfl
  · rw [magnitude_of_f_pos hf0, roundExact_normal _ rm hf0 hf (fields_t_lt fmt w)]
    rfl

/-- Settles O2, from where concatenation and extraction put the bits of the three ports. -/
theorem controlWordIsOpFmtRm : Obligations.ControlWordIsOpFmtRm :=
  ⟨packControl_toNat, fun c => ⟨controlOp_toNat c, controlFmt_toNat c, controlRm_toNat c⟩⟩

/-- Settles O3: two control words with the same op and fmt select the same row. -/
theorem rmFieldSelectsTheRoundingMode : Obligations.RmFieldSelectsTheRoundingMode := by
  refine ⟨rfl, rfl, rfl, rfl, RoundingMode.ofBits_toBits, fun op fmt rm rm' => ?_⟩
  apply decode_mnemonic_congr
  · rw [controlOp_packControl, controlOp_packControl]
  · rw [controlFmt_packControl, controlFmt_packControl]

/-- Settles O4: each written word is the encoding of its row's instruction. -/
theorem writtenControlWordsDecode : Obligations.WrittenControlWordsDecode :=
  ⟨decode_encode (.fpassH 3), decode_encode (.fpassS 0),
    decode_encode (.fmulH .tiesToEven), decode_encode (.fmulS .towardNegative),
    decode_encode (.faddH .towardPositive), decode_encode (.faddS .towardZero),
    decode_encode (.fsubH .tiesToEven), decode_encode (.fsubS .towardPositive),
    decode_encode (.fdivH .towardNegative), decode_encode (.fdivS .tiesToEven),
    decode_encode (.reserved101 0b101), decode_encode (.reserved11 0b1111)⟩

/-- Settles O5: every control word is the encoding of what it decodes to, and an encoding selects its own
row only. -/
theorem exactlyOneRowMatchesEachControlWord : Obligations.ExactlyOneRowMatchesEachControlWord := by
  intro c
  obtain ⟨-, hrow⟩ := Laws.RowMatch.statement (decode c)
  rwa [encode_decode] at hrow

/-- Settles O6: the two directions, `decode_encode` and `encode_decode`. -/
theorem controlWordDecodeEncodeAgree : Obligations.ControlWordDecodeEncodeAgree :=
  ⟨decode_encode, encode_decode⟩

/-- Settles O9: assembly encodes the line's instruction and leaves its operand words as they are. -/
theorem assemblyLinesEncode : Obligations.AssemblyLinesEncode :=
  ⟨fun op fmt rm _ _ => ⟨decode_encode (op.instr fmt rm.mode), rfl, rfl⟩, fun _ => ⟨rfl, rfl⟩, rfl⟩

/-- Settles O29: the factory's words by evaluation; the values by class, each finite word written as the
fields it packs. -/
theorem notableWords : Obligations.NotableWords := by
  refine ⟨rfl, rfl, rfl, rfl, rfl, rfl, rfl, rfl, rfl, rfl, rfl, rfl, rfl, rfl,
    numericValue_makeZero .half true, numericValue_makeInf .single true, numericValue_makeNan .half,
    (numericValue_pack_subnormal .half false 1 (by decide) (by decide)).trans
      (congrArg _ ?_),
    (numericValue_pack_normal .half false 1 0 (by decide) (by decide) (by decide)).trans
      (congrArg _ ?_),
    (numericValue_pack_normal .half false 15 0 (by decide) (by decide) (by decide)).trans
      (congrArg _ ?_),
    (numericValue_pack_normal .half false 30 1023 (by decide) (by decide) (by decide)).trans
      (congrArg _ ?_),
    (numericValue_pack_subnormal .single false 1 (by decide) (by decide)).trans
      (congrArg _ ?_),
    (numericValue_pack_normal .single false 1 0 (by decide) (by decide) (by decide)).trans
      (congrArg _ ?_),
    (numericValue_pack_normal .single false 128 0x400000 (by decide) (by decide) (by decide)).trans
      (congrArg _ ?_),
    (numericValue_pack_normal .single false 126 0 (by decide) (by decide) (by decide)).trans
      (congrArg _ ?_)⟩
  all_goals norm_num [signFactor, quantum, Format.M, Format.bias, Format.spec]

end Sys2Proof.Proofs.Encoding
end

section
/-!
SUPPORT. Datapath (40_datapath.md): what each sub-block computes (R54 to R70), and that a word the
kernels finish is the normative rounding of their exact result (R68, R71, R72). The idea that carries the
refinement is `Truncates`: a rational cut down to an integer with a sticky-bit, which every shifter of the
datapath keeps and which determines both.
-/

namespace Sys2Proof

theorem Format.M_pos (fmt : Format) : 0 < fmt.M := by cases fmt <;> decide

theorem Format.one_lt_emaxf (fmt : Format) : 1 < fmt.emaxf := by cases fmt <;> decide

/-- The range of an operand's exponent (R57) and the bias, as numbers. -/
theorem Format.exponent_numerals (fmt : Format) :
    (fmt = .half ∧ fmt.emin - fmt.M = -24 ∧ fmt.emax = 15 ∧ fmt.bias = 15 ∧ fmt.M = 10) ∨
      (fmt = .single ∧ fmt.emin - fmt.M = -149 ∧ fmt.emax = 127 ∧ fmt.bias = 127 ∧ fmt.M = 23) := by
  cases fmt <;> decide

namespace Machine

/-! ### Bits of naturals -/

theorem testBit_eq_true_iff (x i : Nat) : x.testBit i = true ↔ x / 2 ^ i % 2 = 1 := by
  rw [Nat.testBit_eq_decide_div_mod_eq, decide_eq_true_iff]

/-- Something is cut off below bit `d` exactly where a lower bit is 1. -/
theorem mod_two_pow_ne_zero_iff (x d : Nat) : x % 2 ^ d ≠ 0 ↔ ∃ i, i < d ∧ x.testBit i = true := by
  constructor
  · intro h
    obtain ⟨i, hi⟩ := Nat.exists_testBit_of_ne_zero h
    rw [Nat.testBit_mod_two_pow] at hi
    exact ⟨i, by simpa using hi⟩
  · rintro ⟨i, hid, hi⟩ h
    have hbit := Nat.testBit_mod_two_pow x d i
    rw [h, hi] at hbit
    simp [hid] at hbit

/-- The quotient by `2^k` is the quotient by `2^(k+1)` with bit `k` appended. -/
theorem two_mul_add_testBit (x k : Nat) : 2 * (x / 2 ^ (k + 1)) + (x.testBit k).toNat = x / 2 ^ k := by
  rw [Nat.toNat_testBit, pow_succ, ← Nat.div_div_eq_div_mul]
  omega

/-- A shift that leaves nothing loses the operand's top bit with the rest. -/
theorem shiftOut {x n d : Nat} (hx : x < 2 ^ n) (hd : n ≤ d) : x / 2 ^ d = 0 ∧ x % 2 ^ d = x := by
  have hlt : x < 2 ^ d := hx.trans_le (Nat.pow_le_pow_right two_pos hd)
  exact ⟨Nat.div_eq_of_lt hlt, Nat.mod_eq_of_lt hlt⟩

/-! ### The shifters (R65 to R67) -/

/-- A saturated SHR_JAM leaves the sticky-bit alone. -/
theorem shrJam_saturated {m n d : Nat} (h st : Bool) (hm : m < 2 ^ n) (hd : n < d) :
    shrJam m h st d = (0, false, st || h || decide (m ≠ 0)) := by
  have hpred : n ≤ d - 1 := by omega
  rw [shrJam_pos m h st (by omega), (shiftOut hm hd.le).1, (shiftOut hm hpred).2,
    Nat.testBit_lt_two_pow (hm.trans_le (Nat.pow_le_pow_right two_pos hpred))]

/-- A saturated JAM keeps only whether the operand was nonzero. -/
theorem jam_saturated {x n d : Nat} (hx : x < 2 ^ n) (hd : n ≤ d) :
    jam x d = (decide (x ≠ 0)).toNat := by
  obtain ⟨hdiv, hmod⟩ := shiftOut hx hd
  rw [jam_eq, hdiv, hmod, Nat.zero_or]

theorem jam_exact {x d : Nat} (h : x % 2 ^ d = 0) : jam x d = x / 2 ^ d := by
  simp [jam_eq, h]

/-- Where something is cut off, JAM gives the odd integer beside the exact quotient. -/
theorem jam_inexact {x d : Nat} (h : x % 2 ^ d ≠ 0) : jam x d = 2 * (x / 2 ^ d / 2) + 1 := by
  have hdiv := Nat.or_div_two_pow (a := x / 2 ^ d) (b := 1) (n := 1)
  have hmod := Nat.or_mod_two_pow (a := x / 2 ^ d) (b := 1) (n := 1)
  have hodd : (x / 2 ^ d % 2 ||| 1) = 1 := by
    rcases Nat.mod_two_eq_zero_or_one (x / 2 ^ d) with hbit | hbit <;> rw [hbit] <;> rfl
  simp only [pow_one, Nat.reduceDiv, Nat.or_zero, Nat.one_mod, hodd] at hdiv hmod
  simp only [jam_eq, ne_eq, h, not_false_eq_true, decide_true, Bool.toNat_true]
  omega

theorem jam_lt {x n d : Nat} (hn : 0 < n) (hx : x < 2 ^ n) : jam x d < 2 ^ n := by
  have hbit : (decide (x % 2 ^ d ≠ 0)).toNat < 2 ^ n :=
    (Bool.toNat_lt _).trans_le (Nat.pow_le_pow_right two_pos hn)
  rw [jam_eq]
  exact Nat.or_lt_two_pow ((Nat.div_le_self _ _).trans_lt hx) hbit

/-- Shifting by the distance from the leading one to bit `P` puts it there. -/
theorem shift_to_leading {D P : Nat} (h0 : 0 < D) (hlt : D < 2 ^ (P + 1)) :
    msb D ≤ P ∧ 2 ^ P ≤ D * 2 ^ (P - msb D) ∧ D * 2 ^ (P - msb D) < 2 ^ (P + 1) := by
  have hmsb : msb D ≤ P := Nat.lt_succ_iff.mp ((Nat.log2_lt h0.ne').mpr hlt)
  have hP : 2 ^ P = 2 ^ msb D * 2 ^ (P - msb D) := by rw [← pow_add]; congr 1; omega
  have hP1 : 2 ^ (P + 1) = 2 ^ (msb D + 1) * 2 ^ (P - msb D) := by rw [← pow_add]; congr 1; omega
  refine ⟨hmsb, ?_, ?_⟩
  · rw [hP]; exact Nat.mul_le_mul_right _ (two_pow_msb_le h0.ne')
  · rw [hP1]; exact Nat.mul_lt_mul_of_pos_right (lt_two_pow_msb D) (by positivity)

/-- What LEFT_NORMALIZE answers under its precondition (R67). -/
theorem leftNormalize_spec {D P : Nat} (be : Int) (h0 : 0 < D) (hlt : D < 2 ^ (P + 1)) :
    ∃ z, z ≤ P ∧ leftNormalize D be P = (D * 2 ^ z, be - z) ∧ 2 ^ P ≤ D * 2 ^ z ∧
      D * 2 ^ z < 2 ^ (P + 1) := by
  obtain ⟨-, hlo, hhi⟩ := shift_to_leading h0 hlt
  exact ⟨P - msb D, Nat.sub_le _ _, by rw [leftNormalize, Nat.shiftLeft_eq], hlo, hhi⟩

/-- What SUBNORMAL_NORMALIZE answers under its precondition (R56). -/
theorem subnormalNormalize_spec {fmt : Format} {t : Nat} (h0 : 0 < t) (hlt : t < 2 ^ fmt.M) :
    ∃ k, 1 ≤ k ∧ k ≤ fmt.M ∧ subnormalNormalize fmt t = (1 - (fmt.bias : Int) - k, t * 2 ^ k) ∧
      2 ^ fmt.M ≤ t * 2 ^ k ∧ t * 2 ^ k < 2 ^ (fmt.M + 1) := by
  have hmsb : msb t < fmt.M := (Nat.log2_lt h0.ne').mpr hlt
  obtain ⟨-, hlo, hhi⟩ := shift_to_leading h0 (hlt.trans (Nat.pow_lt_pow_succ one_lt_two))
  exact ⟨fmt.M - msb t, by omega, Nat.sub_le _ _, by rw [subnormalNormalize, Nat.shiftLeft_eq], hlo, hhi⟩

/-! ### Unpacked operands (R55, R57) -/

theorem classify_cases_of_finite {c : FloatClass} (h : isFiniteNonzero c = true) :
    c = .normal ∨ c = .subnormal := by
  cases c with
  | normal => exact .inl rfl
  | subnormal => exact .inr rfl
  | zero | infinity | nan => exact absurd h (by decide)

/-- `2^k` quanta at `e` make one at `e + k`. -/
theorem quantum_add (fmt : Format) (e : Int) (k : Nat) :
    quantum fmt (e + k) = quantum fmt e * 2 ^ k := by
  rw [quantum, quantum, ← zpow_natCast, ← zpow_add₀ two_ne_zero]
  congr 1
  omega

theorem quantum_sub_one (fmt : Format) (e : Int) : quantum fmt e = quantum fmt (e - 1) * 2 := by
  simpa using quantum_add fmt (e - 1) 1

theorem unpack_s (fmt : Format) (w : Word) : (unpack fmt w).s = signBit fmt w := by
  unfold unpack
  dsimp only
  split <;> rfl

theorem magnitude_eq (u : Unpacked) (fmt : Format) : u.magnitude fmt = u.sig * quantum fmt u.e := rfl

theorem Unpacked.Normalised.magnitude_pos {u : Unpacked} {fmt : Format} (h : u.Normalised fmt) :
    0 < u.magnitude fmt := by
  have hsig : 0 < u.sig := (Nat.two_pow_pos _).trans_le h.1
  have hq := quantum_pos fmt u.e
  rw [magnitude_eq]
  positivity

/-- What UNPACK answers on a Normal or Subnormal word (R57). -/
theorem unpack_spec {fmt : Format} {w : Word} (hfin : isFiniteNonzero (classify fmt w) = true) :
    (unpack fmt w).Normalised fmt ∧ (unpack fmt w).magnitude fmt = magnitude fmt w ∧
      fmt.emin - fmt.M ≤ (unpack fmt w).e ∧ (unpack fmt w).e ≤ fmt.emax := by
  have htlt := fields_t_lt fmt w
  have hmax := fmt.one_lt_emaxf
  rcases (isFiniteNonzero_classify_iff fmt w).mp hfin with ⟨hf, ht⟩ | ⟨hf0, hf⟩
  · obtain ⟨k, hk1, hkM, hnorm, hlo, hhi⟩ := subnormalNormalize_spec (Nat.pos_of_ne_zero ht) htlt
    have hunpack : unpack fmt w =
        ⟨(fields fmt w).s, 1 - (fmt.bias : Int) - k, (fields fmt w).t * 2 ^ k⟩ := by
      simp [unpack, hf, hnorm]
    have hq := quantum_add fmt (1 - fmt.bias - k) k
    rw [sub_add_cancel] at hq
    rw [hunpack, magnitude_of_f_eq_zero hf, magnitude_eq, hq]
    refine ⟨⟨hlo, hhi⟩, by push_cast; ring, ?_, ?_⟩ <;> simp only [Format.emin, Format.emax] <;> omega
  · have hunpack : unpack fmt w =
        ⟨(fields fmt w).s, (fields fmt w).f - fmt.bias, 2 ^ fmt.M + (fields fmt w).t⟩ := by
      simp [unpack, hf0.ne']
    have hhi : 2 ^ fmt.M + (fields fmt w).t < 2 ^ (fmt.M + 1) := by rw [pow_succ]; omega
    rw [hunpack, magnitude_of_f_pos hf0, magnitude_eq]
    refine ⟨⟨Nat.le_add_right _ _, hhi⟩, rfl, ?_, ?_⟩ <;>
      simp only [Format.emin, Format.emax] <;> omega

theorem magnitude_pos {fmt : Format} {w : Word} (hfin : isFiniteNonzero (classify fmt w) = true) :
    0 < magnitude fmt w := by
  obtain ⟨hnorm, hmag, -, -⟩ := unpack_spec hfin
  exact hmag ▸ hnorm.magnitude_pos

/-! ### Integer part and sticky-bit

A normalised intermediate (R68) is the rational it stands for, counted in units of the half-bit's place
and cut down to `2m + h`; `st` says whether anything was cut off. -/

/-- `w` cut down to the integer `g`; `st` is 0 exactly where nothing was cut off. -/
def Truncates (w : ℚ) (g : Nat) (st : Bool) : Prop :=
  (g : ℚ) ≤ w ∧ w < g + 1 ∧ (st = false ↔ w = g)

theorem truncates_natCast (n : Nat) : Truncates n n false :=
  ⟨le_rfl, lt_add_one _, iff_of_true rfl rfl⟩

/-- The strict form: something was cut off. -/
theorem truncates_true_iff {w : ℚ} {g : Nat} : Truncates w g true ↔ (g : ℚ) < w ∧ w < g + 1 := by
  constructor
  · rintro ⟨hle, hlt, hst⟩
    exact ⟨lt_of_le_of_ne hle fun h => Bool.noConfusion (hst.mpr h.symm), hlt⟩
  · rintro ⟨hgt, hlt⟩
    exact ⟨hgt.le, hlt, iff_of_false Bool.noConfusion hgt.ne'⟩

theorem truncates_false_iff {w : ℚ} {g : Nat} : Truncates w g false ↔ w = g := by
  constructor
  · rintro ⟨-, -, hst⟩
    exact hst.mp rfl
  · rintro rfl
    exact truncates_natCast g

/-- Cutting off again at a coarser place: the sticky-bit keeps what both cuts lost. -/
theorem Truncates.div {w : ℚ} {g : Nat} {st : Bool} (h : Truncates w g st) {k : Nat} (hk : 0 < k) :
    Truncates (w / k) (g / k) (st || decide (g % k ≠ 0)) := by
  obtain ⟨hle, hlt, hst⟩ := h
  have hkq : (0 : ℚ) < k := by exact_mod_cast hk
  have hsplit : k * (g / k) + g % k = g := Nat.div_add_mod g k
  have hmod : g % k < k := Nat.mod_lt g hk
  have hlo : ((g / k : ℕ) : ℚ) * k ≤ g := by exact_mod_cast Nat.div_mul_le_self g k
  have hhi : (g : ℚ) + 1 ≤ ((g / k : ℕ) + 1) * k := by
    have hnat : g + 1 ≤ (g / k + 1) * k := by rw [Nat.add_one_mul, Nat.mul_comm]; omega
    exact_mod_cast hnat
  refine ⟨?_, ?_, ?_⟩
  · rw [le_div_iff₀ hkq]; exact hlo.trans hle
  · rw [div_lt_iff₀ hkq]; exact hlt.trans_le hhi
  · rw [div_eq_iff hkq.ne', Bool.or_eq_false_iff, hst, decide_eq_false_iff_not, not_not]
    constructor
    · rintro ⟨rfl, hzero⟩
      rw [hzero, add_zero, Nat.mul_comm] at hsplit
      exact_mod_cast hsplit.symm
    · intro hw
      have hg : (g : ℚ) = (g / k : ℕ) * k := le_antisymm (hle.trans hw.le) hlo
      have hnat : g = g / k * k := by exact_mod_cast hg
      exact ⟨hw.trans hg.symm, by rw [Nat.mul_comm] at hnat; omega⟩

theorem Truncates.add_natCast {w : ℚ} {g : Nat} {st : Bool} (h : Truncates w g st) (n : Nat) :
    Truncates (w + n) (g + n) st := by
  obtain ⟨hle, hlt, hst⟩ := h
  refine ⟨by push_cast; linarith, by push_cast; linarith, hst.trans ?_⟩
  push_cast
  exact (add_left_inj _).symm

/-- Subtracting a rational rounds its integer part the other way. -/
theorem Truncates.natCast_sub {w : ℚ} {g : Nat} (h : Truncates w g true) {n : Nat} (hn : g + 1 ≤ n) :
    Truncates (n - w) (n - (g + 1)) true := by
  obtain ⟨hgt, hlt⟩ := truncates_true_iff.mp h
  rw [truncates_true_iff]
  push_cast [Nat.cast_sub hn]
  constructor <;> linarith

/-- The quotient and remainder of two naturals. -/
theorem truncates_natDiv (a : Nat) {b : Nat} (hb : 0 < b) :
    Truncates ((a : ℚ) / b) (a / b) (decide (a % b ≠ 0)) := (truncates_natCast a).div hb

/-- SHR_JAM (R65) moves the cut `d` places up and keeps it exact. -/
theorem Truncates.shrJam {w : ℚ} {m : Nat} {h st : Bool} (ht : Truncates w (2 * m + h.toNat) st)
    (d : Nat) :
    Truncates (w / 2 ^ d) (2 * (shrJam m h st d).1 + (shrJam m h st d).2.1.toNat)
      (shrJam m h st d).2.2 := by
  cases d with
  | zero => simpa using ht
  | succ d =>
    have hstep := ht.div (Nat.two_pow_pos (d + 1))
    have hhalf : (2 * m + h.toNat) / 2 = m := by have := h.toNat_lt; omega
    have hdiv : (2 * m + h.toNat) / 2 ^ (d + 1) = 2 * (m / 2 ^ (d + 1)) + (m.testBit d).toNat := by
      rw [two_mul_add_testBit, pow_succ', ← Nat.div_div_eq_div_mul, hhalf]
    have hmod : (2 * m + h.toNat) % 2 ^ (d + 1) = h.toNat + 2 * (m % 2 ^ d) := by
      rw [pow_succ', Nat.mod_mul, hhalf]
      have := h.toNat_lt
      omega
    have hst : decide (h.toNat + 2 * (m % 2 ^ d) ≠ 0) = (h || decide (m % 2 ^ d ≠ 0)) := by
      cases h <;> simp
    rw [hdiv, hmod, hst, ← Bool.or_assoc, Nat.cast_pow, Nat.cast_ofNat] at hstep
    rw [shrJam_pos m h st (Nat.succ_ne_zero d)]
    exact hstep

theorem Intermediate.Represents.m_bounds {i : Intermediate} {fmt : Format} {x : ℚ}
    (h : i.Represents fmt x) : 2 ^ fmt.M ≤ i.m ∧ i.m < 2 ^ (fmt.M + 1) := by
  obtain ⟨hlo, hhi, -⟩ := h
  exact ⟨hlo, hhi⟩

/-- The contract of R68 in units of the half-bit's place. -/
theorem represents_iff (i : Intermediate) (fmt : Format) (x : ℚ) :
    i.Represents fmt x ↔ 2 ^ fmt.M ≤ i.m ∧ i.m < 2 ^ (fmt.M + 1) ∧
      Truncates (x / quantum fmt (i.be - fmt.bias - 1)) (2 * i.m + i.h.toNat) i.st := by
  have hq := quantum_pos fmt (i.be - fmt.bias - 1)
  have hq2 : (2 : ℚ) ^ (i.be - fmt.bias - fmt.M) = quantum fmt (i.be - fmt.bias - 1) * 2 :=
    quantum_sub_one fmt (i.be - fmt.bias)
  have hh : (if i.h then (1 : ℚ) / 2 else 0) = i.h.toNat / 2 := by cases i.h <;> simp
  simp only [Intermediate.Represents, hq2, hh]
  generalize quantum fmt (i.be - fmt.bias - 1) = q at *
  refine and_congr_right fun _ => and_congr_right fun _ => ?_
  constructor
  · rintro ⟨δ, rfl, hzero, hpos⟩
    have hw : (i.m + (i.h.toNat : ℚ) / 2 + δ) * (q * 2) / q = (2 * i.m + i.h.toNat : ℕ) + 2 * δ := by
      field_simp; push_cast; ring
    rw [hw]
    cases hst : i.st with
    | false => rw [truncates_false_iff, hzero hst]; simp
    | true =>
      obtain ⟨hδ, hδ2⟩ := hpos hst
      rw [truncates_true_iff]
      constructor <;> linarith
  · intro ht
    refine ⟨(x / q - (2 * i.m + i.h.toNat : ℕ)) / 2, ?_, fun hst => ?_, fun hst => ?_⟩
    · field_simp; push_cast; ring
    · rw [hst, truncates_false_iff] at ht
      rw [ht]; simp
    · rw [hst, truncates_true_iff] at ht
      constructor <;> linarith [ht.1, ht.2]

/-! ### The kernels' intermediates (R68, R77, R84, R87, R95) -/

/-- How the kernels build an intermediate: an integer `N`, itself a cut of `w`, is split at its half-bit
`k` into significand, half-bit and sticky-bit. -/
theorem represents_of_cut {fmt : Format} {i : Intermediate} {x w : ℚ} {N k : Nat} {st : Bool}
    {e : Int} (ht : Truncates w N st) (hx : x = w * quantum fmt e) (he : i.be = e + fmt.bias + 1 + k)
    (hm : i.m = N / 2 ^ (k + 1)) (hh : i.h = N.testBit k)
    (hst : i.st = (st || decide (N % 2 ^ k ≠ 0))) (hlo : 2 ^ (fmt.M + (k + 1)) ≤ N)
    (hhi : N < 2 ^ (fmt.M + 1 + (k + 1))) : i.Represents fmt x := by
  have hq : quantum fmt (i.be - fmt.bias - 1) = quantum fmt e * 2 ^ k := by
    rw [← quantum_add, he]; congr 1; omega
  have hunits : x / quantum fmt (i.be - fmt.bias - 1) = w / (2 ^ k : ℕ) := by
    have := (quantum_pos fmt e).ne'
    rw [hx, hq]; push_cast; field_simp
  rw [pow_add] at hlo hhi
  rw [represents_iff, hunits, hm, hh, hst, two_mul_add_testBit]
  exact ⟨(Nat.le_div_iff_mul_le (by positivity)).mpr hlo,
    (Nat.div_lt_iff_lt_mul (by positivity)).mpr hhi, ht.div (by positivity)⟩

theorem quantum_mul (fmt : Format) (d e : Int) :
    quantum fmt d * quantum fmt e = quantum fmt (d + e - fmt.M) := by
  rw [quantum, quantum, quantum, ← zpow_add₀ two_ne_zero]
  congr 1
  omega

/-- The product of two normalised significands has its leading one at bit `2M` or `2M + 1`. -/
theorem normalised_mul {fmt : Format} {x y : Unpacked} (hx : x.Normalised fmt) (hy : y.Normalised fmt) :
    2 ^ (2 * fmt.M) ≤ x.sig * y.sig ∧ x.sig * y.sig < 2 ^ (2 * fmt.M + 2) := by
  have hlo : 2 ^ (2 * fmt.M) = 2 ^ fmt.M * 2 ^ fmt.M := by ring
  have hhi : 2 ^ (2 * fmt.M + 2) = 2 ^ (fmt.M + 1) * 2 ^ (fmt.M + 1) := by ring
  rw [hlo, hhi]
  exact ⟨Nat.mul_le_mul hx.1 hy.1, Nat.mul_lt_mul'' hx.2 hy.2⟩

/-- R77: the product's intermediate. -/
theorem mulIntermediate_represents {fmt : Format} {x y : Unpacked} (hx : x.Normalised fmt)
    (hy : y.Normalised fmt) :
    (mulIntermediate fmt x y).Represents fmt (x.magnitude fmt * y.magnitude fmt) := by
  obtain ⟨hlo, hhi⟩ := normalised_mul hx hy
  have hM := fmt.M_pos
  have hprod : x.magnitude fmt * y.magnitude fmt =
      (x.sig * y.sig : ℕ) * quantum fmt (x.e + y.e - fmt.M) := by
    rw [magnitude_eq, magnitude_eq, ← quantum_mul]; push_cast; ring
  unfold mulIntermediate
  dsimp only
  split
  case isTrue hbig =>
    refine represents_of_cut (k := fmt.M) (truncates_natCast _) hprod ?_
      (Nat.shiftRight_eq_div_pow _ _) rfl rfl ?_ ?_
    · dsimp only; omega
    · rwa [show fmt.M + (fmt.M + 1) = 2 * fmt.M + 1 by omega]
    · rwa [show fmt.M + 1 + (fmt.M + 1) = 2 * fmt.M + 2 by omega]
  case isFalse hsmall =>
    refine represents_of_cut (k := fmt.M - 1) (truncates_natCast _) hprod ?_ ?_ rfl rfl ?_ ?_
    · dsimp only; omega
    · rw [Nat.sub_add_cancel hM, Nat.shiftRight_eq_div_pow]
    · rwa [show fmt.M + (fmt.M - 1 + 1) = 2 * fmt.M by omega]
    · rw [show fmt.M + 1 + (fmt.M - 1 + 1) = 2 * fmt.M + 1 by omega]; exact not_le.mp hsmall

theorem mulIntermediate_s (fmt : Format) (x y : Unpacked) :
    (mulIntermediate fmt x y).s = (x.s != y.s) := by
  unfold mulIntermediate
  dsimp only
  split <;> rfl

/-- The quotient of two normalised significands, with `M + 3` bits appended, has its leading one at bit
`M + 2` or `M + 3`. -/
theorem normalised_div {fmt : Format} {x y : Unpacked} (hx : x.Normalised fmt) (hy : y.Normalised fmt) :
    2 ^ (fmt.M + 2) ≤ (x.sig <<< (fmt.M + 3)) / y.sig ∧
      (x.sig <<< (fmt.M + 3)) / y.sig < 2 ^ (fmt.M + 4) := by
  have hy0 : 0 < y.sig := (Nat.two_pow_pos _).trans_le hy.1
  rw [Nat.shiftLeft_eq, Nat.le_div_iff_mul_le hy0, Nat.div_lt_iff_lt_mul hy0]
  constructor
  · calc 2 ^ (fmt.M + 2) * y.sig ≤ 2 ^ (fmt.M + 2) * 2 ^ (fmt.M + 1) := Nat.mul_le_mul_left _ hy.2.le
      _ = 2 ^ fmt.M * 2 ^ (fmt.M + 3) := by ring
      _ ≤ x.sig * 2 ^ (fmt.M + 3) := Nat.mul_le_mul_right _ hx.1
  · calc x.sig * 2 ^ (fmt.M + 3) < 2 ^ (fmt.M + 1) * 2 ^ (fmt.M + 3) :=
          Nat.mul_lt_mul_of_pos_right hx.2 (by positivity)
      _ = 2 ^ (fmt.M + 4) * 2 ^ fmt.M := by ring
      _ ≤ 2 ^ (fmt.M + 4) * y.sig := Nat.mul_le_mul_left _ hy.1

/-- R95: the quotient's intermediate. -/
theorem divIntermediate_represents {fmt : Format} {x y : Unpacked} (hx : x.Normalised fmt)
    (hy : y.Normalised fmt) :
    (divIntermediate fmt x y).Represents fmt (x.magnitude fmt / y.magnitude fmt) := by
  obtain ⟨hlo, hhi⟩ := normalised_div hx hy
  have hy0 : 0 < y.sig := (Nat.two_pow_pos _).trans_le hy.1
  have hquot : x.magnitude fmt / y.magnitude fmt =
      ((x.sig <<< (fmt.M + 3) : ℕ) : ℚ) / y.sig * quantum fmt (x.e - y.e - 3) := by
    have hqx : quantum fmt x.e = quantum fmt (x.e - y.e - 3) * quantum fmt y.e * 2 ^ (fmt.M + 3) := by
      rw [quantum_mul, ← quantum_add]; congr 1; omega
    have hqy := (quantum_pos fmt y.e).ne'
    have hyq : (y.sig : ℚ) ≠ 0 := by exact_mod_cast hy0.ne'
    rw [magnitude_eq, magnitude_eq, hqx, Nat.shiftLeft_eq]
    push_cast
    field_simp
  unfold divIntermediate
  dsimp only
  split
  case isTrue hbig =>
    refine represents_of_cut (k := 2) (truncates_natDiv _ hy0) hquot ?_
      (Nat.shiftRight_eq_div_pow _ _) rfl (Bool.or_comm _ _) hbig hhi
    dsimp only; omega
  case isFalse hsmall =>
    refine represents_of_cut (k := 1) (truncates_natDiv _ hy0) hquot ?_
      (Nat.shiftRight_eq_div_pow _ _) rfl ?_ hlo (not_le.mp hsmall)
    · dsimp only; omega
    · simp [Bool.or_comm, Nat.testBit_zero]

theorem divIntermediate_s (fmt : Format) (x y : Unpacked) :
    (divIntermediate fmt x y).s = (x.s != y.s) := by
  unfold divIntermediate
  dsimp only
  split <;> rfl

theorem shrJam_fst (m : Nat) (h st : Bool) (d : Nat) : (shrJam m h st d).1 = m / 2 ^ d := by
  cases d with
  | zero => simp
  | succ d => rw [shrJam_pos m h st (Nat.succ_ne_zero d)]

/-- A magnitude counted at a place `d` above its own. -/
theorem magnitude_at {u : Unpacked} {fmt : Format} {e : Int} (he : u.e ≤ e) :
    u.magnitude fmt = u.sig / 2 ^ (e - u.e).toNat * quantum fmt e := by
  have hq := quantum_add fmt u.e (e - u.e).toNat
  rw [Int.toNat_of_nonneg (by omega), add_sub_cancel] at hq
  rw [magnitude_eq, hq]
  field_simp

/-- R84 with the operands in order: the aligned sum keeps its cut, and a carry moves it one place up. -/
theorem addIntermediate_represents_of_align {fmt : Format} {x y l r : Unpacked} (s : Bool)
    (hord : alignOrder x y = (l, r)) (hl : l.Normalised fmt) (hr : r.Normalised fmt) (he : r.e ≤ l.e) :
    (addIntermediate fmt s x y).Represents fmt (l.magnitude fmt + r.magnitude fmt) := by
  have hcut := (truncates_natCast (2 * r.sig)).shrJam (h := false) (l.e - r.e).toNat
  have hfst := shrJam_fst r.sig false false (l.e - r.e).toNat
  have hsmall : r.sig / 2 ^ (l.e - r.e).toNat ≤ r.sig := Nat.div_le_self _ _
  have hsum : l.magnitude fmt + r.magnitude fmt =
      (((2 * r.sig : ℕ) : ℚ) / 2 ^ (l.e - r.e).toNat + (2 * l.sig : ℕ)) * quantum fmt (l.e - 1) := by
    rw [magnitude_at he, magnitude_eq l, quantum_sub_one]; push_cast; ring
  have hq := (quantum_pos fmt (l.e - 1)).ne'
  unfold addIntermediate
  rw [hord]
  dsimp only
  generalize shrJam r.sig false false (l.e - r.e).toNat = j at *
  have hsumCut : Truncates (((2 * r.sig : ℕ) : ℚ) / 2 ^ (l.e - r.e).toNat + (2 * l.sig : ℕ))
      (2 * (l.sig + j.1) + j.2.1.toNat) j.2.2 := by
    have := hcut.add_natCast (2 * l.sig)
    rwa [show 2 * (l.sig + j.1) + j.2.1.toNat = 2 * j.1 + j.2.1.toNat + 2 * l.sig by ring]
  split
  case isTrue hcarry =>
    have hcarried := hsumCut.shrJam 1
    have hunit : l.e + fmt.bias + 1 - fmt.bias - 1 = l.e := by omega
    rw [represents_iff, hunit, quantum_sub_one, hsum, shrJam_fst]
    dsimp only
    refine ⟨by omega, by omega, ?_⟩
    rw [shrJam_fst] at hcarried
    rwa [← div_div, mul_div_cancel_right₀ _ hq, ← pow_one (2 : ℚ)]
  case isFalse hnocarry =>
    have hunit : l.e + fmt.bias - fmt.bias - 1 = l.e - 1 := by omega
    rw [represents_iff, hunit, hsum, mul_div_cancel_right₀ _ hq]
    exact ⟨hl.1.trans (Nat.le_add_right _ _), not_le.mp hnocarry, hsumCut⟩

/-- R84: the sum's intermediate. -/
theorem addIntermediate_represents {fmt : Format} {x y : Unpacked} (s : Bool) (hx : x.Normalised fmt)
    (hy : y.Normalised fmt) :
    (addIntermediate fmt s x y).Represents fmt (x.magnitude fmt + y.magnitude fmt) := by
  rcases alignOrder_cases x y with ⟨hord, he⟩ | ⟨hord, he⟩
  · exact addIntermediate_represents_of_align s hord hx hy he
  · rw [add_comm]
    exact addIntermediate_represents_of_align s hord hy hx he.le

theorem addIntermediate_s (fmt : Format) (s : Bool) (x y : Unpacked) :
    (addIntermediate fmt s x y).s = s := by
  unfold addIntermediate
  dsimp only
  split <;> rfl

/-- Normalised magnitudes compare by exponent, then by significand. -/
theorem magnitude_lt_iff {fmt : Format} {r l : Unpacked} (hr : r.Normalised fmt)
    (hl : l.Normalised fmt) :
    r.magnitude fmt < l.magnitude fmt ↔ r.e < l.e ∨ (r.e = l.e ∧ r.sig < l.sig) := by
  have hbelow : ∀ u v : Unpacked, u.Normalised fmt → v.Normalised fmt → u.e < v.e →
      u.magnitude fmt < v.magnitude fmt := by
    intro u v hu hv he
    have hq := quantum_pos fmt v.e
    have hshift : 2 ^ 1 ≤ 2 ^ (v.e - u.e).toNat := Nat.pow_le_pow_right two_pos (by omega)
    have hsig : u.sig < v.sig * 2 ^ (v.e - u.e).toNat := by
      calc u.sig < 2 ^ fmt.M * 2 ^ 1 := hu.2
        _ ≤ v.sig * 2 ^ (v.e - u.e).toNat := Nat.mul_le_mul hv.1 hshift
    rw [magnitude_at he.le, magnitude_eq v]
    gcongr
    rw [div_lt_iff₀ (by positivity)]
    exact_mod_cast hsig
  rcases lt_trichotomy r.e l.e with he | he | he
  · exact iff_of_true (hbelow r l hr hl he) (.inl he)
  · rw [magnitude_eq, magnitude_eq, he, mul_lt_mul_iff_left₀ (quantum_pos fmt l.e), Nat.cast_lt]
    simp
  · exact iff_of_false (hbelow l r hl hr he).le.not_gt (by omega)

theorem e_le_of_magnitude_lt {fmt : Format} {r l : Unpacked} (hr : r.Normalised fmt)
    (hl : l.Normalised fmt) (hlt : r.magnitude fmt < l.magnitude fmt) : r.e ≤ l.e := by
  rcases (magnitude_lt_iff hr hl).mp hlt with he | ⟨he, -⟩
  · exact he.le
  · exact he.le

/-- The exact difference in units of R87's lowest extra bit. -/
def exactDifference (l r : Unpacked) : ℚ :=
  (8 * l.sig : ℕ) - ((8 * r.sig : ℕ) : ℚ) / (2 ^ (l.e - r.e).toNat : ℕ)

theorem exactDifference_mul_quantum (fmt : Format) {l r : Unpacked} (he : r.e ≤ l.e) :
    l.magnitude fmt - r.magnitude fmt = exactDifference l r * quantum fmt (l.e - 3) := by
  have hq := quantum_add fmt (l.e - 3) 3
  rw [Nat.cast_ofNat, sub_add_cancel] at hq
  rw [exactDifference, magnitude_at he, magnitude_eq l, hq]
  push_cast
  ring

theorem exactDifference_pos {fmt : Format} {l r : Unpacked} (hl : l.Normalised fmt)
    (hr : r.Normalised fmt) (hlt : r.magnitude fmt < l.magnitude fmt) : 0 < exactDifference l r := by
  have he := e_le_of_magnitude_lt hr hl hlt
  rw [← sub_pos, exactDifference_mul_quantum fmt he] at hlt
  exact pos_of_mul_pos_left hlt (quantum_pos _ _).le

theorem alignedDifference_eq (l r : Unpacked) :
    alignedDifference l r = 8 * l.sig - jam (8 * r.sig) (l.e - r.e).toNat := by
  rw [alignedDifference, Nat.shiftLeft_eq, Nat.shiftLeft_eq, Nat.mul_comm, Nat.mul_comm r.sig]

theorem alignedDifference_lt {fmt : Format} {l : Unpacked} (hl : l.Normalised fmt) (r : Unpacked) :
    alignedDifference l r < 2 ^ (fmt.M + 4) := by
  have := hl.2
  rw [alignedDifference_eq, pow_add _ fmt.M 4]
  omega

/-- The three extra bits of R87 hold everything up to a distance of three. -/
theorem four_le_of_inexact {n d : Nat} (h : 8 * n % 2 ^ d ≠ 0) : 4 ≤ d := by
  by_contra hd
  have hdvd : 2 ^ d ∣ 2 ^ 3 := Nat.pow_dvd_pow 2 (by omega)
  exact h (Nat.mod_eq_zero_of_dvd (hdvd.mul_right n))

/-- Where JAM cuts nothing off, R87 computes the exact difference. -/
theorem alignedDifference_exact {l r : Unpacked} (hexact : 8 * r.sig % 2 ^ (l.e - r.e).toNat = 0)
    (hpos : 0 < exactDifference l r) : exactDifference l r = alignedDifference l r := by
  have hcut := truncates_natDiv (8 * r.sig) (Nat.two_pow_pos (l.e - r.e).toNat)
  simp only [hexact, ne_eq, not_true_eq_false, decide_false, truncates_false_iff] at hcut
  rw [exactDifference, hcut] at hpos ⊢
  have hlt : 8 * r.sig / 2 ^ (l.e - r.e).toNat < 8 * l.sig := by exact_mod_cast sub_pos.mp hpos
  rw [alignedDifference_eq, jam_exact hexact, Nat.cast_sub hlt.le]

/-- Where JAM cuts something off, the difference of R87 is odd and, halved, a cut of the exact one; the
distance is then too large for it to lose its leading place. -/
theorem alignedDifference_inexact {fmt : Format} {l r : Unpacked} (hl : l.Normalised fmt)
    (hr : r.Normalised fmt) (hinexact : 8 * r.sig % 2 ^ (l.e - r.e).toNat ≠ 0) :
    2 ^ (fmt.M + 2) ≤ alignedDifference l r ∧ alignedDifference l r % 2 = 1 ∧
      Truncates (exactDifference l r / 2) (alignedDifference l r / 2) true := by
  have hcut := (truncates_natDiv (8 * r.sig) (Nat.two_pow_pos (l.e - r.e).toNat)).div two_pos
  simp only [hinexact, ne_eq, not_false_eq_true, decide_true, Bool.true_or] at hcut
  have hfar : 8 * r.sig / 2 ^ (l.e - r.e).toNat ≤ 8 * r.sig / 2 ^ 4 :=
    Nat.div_le_div_left (Nat.pow_le_pow_right two_pos (four_le_of_inexact hinexact)) (by positivity)
  have hD := alignedDifference_eq l r
  rw [jam_inexact hinexact] at hD
  have := hl.1
  have := hr.2
  have hhalf : alignedDifference l r / 2 = 4 * l.sig - (8 * r.sig / 2 ^ (l.e - r.e).toNat / 2 + 1) := by
    omega
  have hexact : exactDifference l r / 2 =
      (4 * l.sig : ℕ) - ((8 * r.sig : ℕ) : ℚ) / (2 ^ (l.e - r.e).toNat : ℕ) / (2 : ℕ) := by
    rw [exactDifference]; push_cast; ring
  refine ⟨by rw [pow_add]; omega, by omega, ?_⟩
  rw [hhalf, hexact]
  exact hcut.natCast_sub (by omega)

/-- What the difference of R87 keeps of the exact one: halved, it is a cut of it, and a difference that
needs more than one left shift is exact. -/
theorem alignedDifference_spec {fmt : Format} {l r : Unpacked} (hl : l.Normalised fmt)
    (hr : r.Normalised fmt) (hpos : 0 < exactDifference l r) :
    0 < alignedDifference l r ∧
      Truncates (exactDifference l r / 2) (alignedDifference l r / 2)
        (decide (alignedDifference l r % 2 ≠ 0)) ∧
      (alignedDifference l r < 2 ^ (fmt.M + 2) → exactDifference l r = alignedDifference l r) := by
  by_cases hjam : 8 * r.sig % 2 ^ (l.e - r.e).toNat = 0
  · have hexact := alignedDifference_exact hjam hpos
    rw [hexact] at hpos ⊢
    exact ⟨by exact_mod_cast hpos, truncates_natDiv _ two_pos, fun _ => rfl⟩
  · obtain ⟨hlarge, hodd, hcut⟩ := alignedDifference_inexact hl hr hjam
    refine ⟨(Nat.two_pow_pos _).trans_le hlarge, ?_, fun h => absurd h (not_lt.mpr hlarge)⟩
    rwa [hodd]

/-- R87: the difference's intermediate. A left shift of two places or more needs an exact difference; one
of one place or none leaves the odd bit below the half-bit. -/
theorem subIntermediate_represents {fmt : Format} {l r : Unpacked} (hl : l.Normalised fmt)
    (hr : r.Normalised fmt) (hlt : r.magnitude fmt < l.magnitude fmt) :
    (subIntermediate fmt l r).Represents fmt (l.magnitude fmt - r.magnitude fmt) := by
  have he := e_le_of_magnitude_lt hr hl hlt
  have hdiff := exactDifference_mul_quantum fmt he
  have hhalved : l.magnitude fmt - r.magnitude fmt = exactDifference l r / 2 * quantum fmt (l.e - 2) := by
    rw [hdiff, quantum_sub_one fmt (l.e - 2), sub_sub]; norm_num; ring
  obtain ⟨hD, hcut, hexact⟩ := alignedDifference_spec hl hr (exactDifference_pos hl hr hlt)
  obtain ⟨z, -, hnorm, hlo, hhi⟩ :=
    leftNormalize_spec (l.e + fmt.bias) hD (alignedDifference_lt hl r)
  unfold subIntermediate
  rw [hnorm]
  dsimp only
  generalize alignedDifference l r = D at *
  match z with
  | 0 =>
    refine represents_of_cut (k := 1) hcut hhalved ?_ ?_ ?_ ?_ ?_ ?_
    · dsimp only; omega
    · dsimp only; rw [Nat.shiftRight_eq_div_pow]; omega
    · rw [pow_zero, mul_one]; exact Nat.testBit_add_one D 1
    · rw [Bool.eq_iff_iff]; simp; omega
    · simp only [pow_add] at hlo ⊢; omega
    · simp only [pow_add] at hhi ⊢; omega
  | 1 =>
    refine represents_of_cut (k := 0) hcut hhalved ?_ ?_ ?_ ?_ ?_ ?_
    · dsimp only; omega
    · dsimp only; rw [Nat.shiftRight_eq_div_pow]; omega
    · rw [Nat.testBit_add_one, Nat.testBit_add_one]; simp
    · rw [Bool.eq_iff_iff]; simp; omega
    · simp only [pow_add] at hlo ⊢; omega
    · simp only [pow_add] at hhi ⊢; omega
  | z + 2 =>
    have hsmall : D < 2 ^ (fmt.M + 2) := by
      have hfour : D * 2 ^ 2 ≤ D * 2 ^ (z + 2) :=
        Nat.mul_le_mul_left D (Nat.pow_le_pow_right two_pos (Nat.le_add_left 2 z))
      exact Nat.lt_of_mul_lt_mul_right (hfour.trans_lt (hhi.trans_eq (by ring)))
    have hshifted : l.magnitude fmt - r.magnitude fmt =
        (D * 2 ^ (z + 2) : ℕ) * quantum fmt (l.e - (z + 2 : ℕ) - 3) := by
      have hq := quantum_add fmt (l.e - (z + 2 : ℕ) - 3) (z + 2)
      rw [show l.e - ((z + 2 : ℕ) : ℤ) - 3 + ((z + 2 : ℕ) : ℤ) = l.e - 3 by omega] at hq
      rw [hdiff, hexact hsmall, hq]
      push_cast
      ring
    refine represents_of_cut (k := 2) (truncates_natCast _) hshifted ?_ (Nat.shiftRight_eq_div_pow _ _)
      rfl rfl hlo hhi
    dsimp only
    omega

theorem subIntermediate_s (fmt : Format) (l r : Unpacked) : (subIntermediate fmt l r).s = l.s := rfl

/-! ### Finishing (R69) is exact rounding (R71) -/

theorem zpow_eq_quantum (fmt : Format) (e : Int) : (2 : ℚ) ^ e = 2 ^ (fmt.M + 1) * quantum fmt (e - 1) := by
  rw [pow_succ, mul_assoc, mul_comm 2, ← quantum_sub_one, two_pow_mul_quantum]

/-- The represented value lies in the binade of its exponent. -/
theorem Intermediate.Represents.log_eq {i : Intermediate} {fmt : Format} {x : ℚ}
    (h : i.Represents fmt x) : 0 < x ∧ Int.log 2 x = i.be - fmt.bias := by
  obtain ⟨hlo, hhi, hle, hlt, -⟩ := (represents_iff i fmt x).mp h
  have hq := quantum_pos fmt (i.be - fmt.bias - 1)
  have hsucc := zpow_add_one₀ (two_ne_zero (α := ℚ)) (i.be - fmt.bias)
  have hh := i.h.toNat_lt
  have hloq : (2 : ℚ) ^ (fmt.M + 1) ≤ (2 * i.m + i.h.toNat : ℕ) := by
    rw [pow_succ']; exact_mod_cast Nat.le_add_right_of_le (Nat.mul_le_mul_left 2 hlo)
  have hhiq : ((2 * i.m + i.h.toNat : ℕ) : ℚ) + 1 ≤ 2 ^ (fmt.M + 1) * 2 := by
    have hnat : 2 * i.m + i.h.toNat + 1 ≤ 2 ^ (fmt.M + 1) * 2 := by omega
    exact_mod_cast hnat
  rw [le_div_iff₀ hq] at hle
  rw [div_lt_iff₀ hq] at hlt
  have hx : (2 : ℚ) ^ (i.be - fmt.bias) ≤ x := by
    rw [zpow_eq_quantum fmt]; exact (mul_le_mul_of_nonneg_right hloq hq.le).trans hle
  have hx' : x < (2 : ℚ) ^ (i.be - fmt.bias + 1) := by
    rw [hsucc, zpow_eq_quantum fmt, mul_right_comm]
    exact hlt.trans_le (mul_le_mul_of_nonneg_right hhiq hq.le)
  have hpos : 0 < x := (zpow_pos two_pos _).trans_le hx
  have hle_log := (Int.zpow_le_iff_le_log one_lt_two hpos).mp (by rwa [Nat.cast_ofNat])
  have hlog_lt := (Int.lt_zpow_iff_log_lt one_lt_two hpos).mp (by rwa [Nat.cast_ofNat])
  exact ⟨hpos, by omega⟩

/-- The exponent FINISH rounds at, as R71 names it: clamped at `1 - BIAS`. -/
theorem Intermediate.Represents.roundExponent_eq {i : Intermediate} {fmt : Format} {x : ℚ}
    (h : i.Represents fmt x) : roundExponent fmt x = max i.be 1 - fmt.bias := by
  rw [roundExponent, h.log_eq.2, max_sub_sub_right]

theorem clampUnderflow_of_pos {i : Intermediate} (h : 0 < i.be) : clampUnderflow i = i :=
  if_neg (not_le.mpr h)

theorem clampUnderflow_of_nonpos {i : Intermediate} (h : i.be ≤ 0) :
    clampUnderflow i =
      { s := i.s, be := 0, m := (shrJam i.m i.h i.st (1 - i.be).toNat).1
        h := (shrJam i.m i.h i.st (1 - i.be).toNat).2.1
        st := (shrJam i.m i.h i.st (1 - i.be).toNat).2.2 } :=
  if_pos h

/-- After the underflow clamp the candidate is a cut of the exact result at the exponent R71 rounds at. -/
theorem clampUnderflow_truncates {i : Intermediate} {fmt : Format} {x : ℚ} (h : i.Represents fmt x) :
    Truncates (x / quantum fmt (roundExponent fmt x - 1))
      (2 * (clampUnderflow i).m + (clampUnderflow i).h.toNat) (clampUnderflow i).st := by
  obtain ⟨-, -, hcut⟩ := (represents_iff i fmt x).mp h
  rw [h.roundExponent_eq]
  rcases lt_or_ge 0 i.be with hbe | hbe
  · rwa [max_eq_left (by omega), clampUnderflow_of_pos hbe]
  · have hq := quantum_add fmt (i.be - fmt.bias - 1) (1 - i.be).toNat
    rw [Int.toNat_of_nonneg (by omega), show i.be - fmt.bias - 1 + (1 - i.be) = 1 - fmt.bias - 1 by omega]
      at hq
    rw [max_eq_right (by omega), clampUnderflow_of_nonpos hbe, hq, ← div_div]
    exact hcut.shrJam _

/-- The end of R71: the rounded significand `n` at exponent `e` is renormalised after a carry, assembled,
and resolved where it overflows. -/
def assembleRounded (fmt : Format) (s : Bool) (rm : RoundingMode) (n : Nat) (e : Int) : Word :=
  let c := if n = 2 ^ (fmt.M + 1) then (2 ^ fmt.M, e + 1) else (n, e)
  let ft := if 2 ^ fmt.M ≤ c.1 then ((c.2 + fmt.bias).toNat, c.1 - 2 ^ fmt.M) else (0, c.1)
  if fmt.emaxf ≤ ft.1 then overflowResult fmt s rm else pack fmt s ft.1 ft.2

/-- ROUND_EXACT sees of a rational only its cut at the half-bit: it rounds that with ROUND (R63). -/
theorem roundExact_eq_of_truncates {fmt : Format} {s : Bool} {x : ℚ} {rm : RoundingMode} {m : Nat}
    {h st : Bool}
    (hcut : Truncates (x / quantum fmt (roundExponent fmt x - 1)) (2 * m + h.toNat) st) :
    roundExact fmt s x rm = assembleRounded fmt s rm (round m s h st rm) (roundExponent fmt x) := by
  have hy : x / quantum fmt (roundExponent fmt x) =
      x / quantum fmt (roundExponent fmt x - 1) / 2 := by
    rw [quantum_sub_one, div_div]
  unfold roundExact
  dsimp only
  rw [hy]
  generalize x / quantum fmt (roundExponent fmt x - 1) = w at *
  obtain ⟨hle, hlt, hst⟩ := hcut
  have hh : (h.toNat : ℚ) ≤ 1 := by exact_mod_cast h.toNat_le
  have hh0 : (0 : ℚ) ≤ h.toNat := by positivity
  push_cast at hle hlt hst
  have hfloor : ⌊w / 2⌋.toNat = m := by
    rw [Int.floor_toNat, Nat.floor_eq_iff (by linarith [(Nat.cast_nonneg m : (0 : ℚ) ≤ m)])]
    constructor <;> linarith
  have hhalf : decide (1 / 2 ≤ w / 2 - m) = h := by
    cases h with
    | false => rw [decide_eq_false_iff_not]; norm_num at hlt ⊢; linarith
    | true => rw [decide_eq_true_iff]; norm_num at hle ⊢; linarith
  have hsticky : (decide (w / 2 - m ≠ 0) && decide (w / 2 - m ≠ 1 / 2)) = st := by
    have hst' : st = true ↔ w ≠ 2 * m + h.toNat := by rw [Ne, ← hst, Bool.not_eq_false]
    have hzero : w / 2 - m = 0 ↔ w = 2 * m := by constructor <;> intro <;> linarith
    have hmid : w / 2 - m = 1 / 2 ↔ w = 2 * m + 1 := by constructor <;> intro <;> linarith
    rw [Bool.eq_iff_iff, Bool.and_eq_true, decide_eq_true_iff, decide_eq_true_iff, hst', Ne, Ne, hzero, hmid]
    cases h with
    | false =>
      norm_num at hlt ⊢
      intro _ hw
      linarith
    | true =>
      norm_num at hle ⊢
      intro _ hw
      linarith
  rw [hfloor, hhalf, hsticky]
  rfl

section
variable (fmt : Format) (s : Bool) (rm : RoundingMode) (e : Int)

theorem assembleRounded_carry :
    assembleRounded fmt s rm (2 ^ (fmt.M + 1)) e =
      if fmt.emaxf ≤ (e + 1 + fmt.bias).toNat then overflowResult fmt s rm
      else pack fmt s (e + 1 + fmt.bias).toNat 0 := by
  simp [assembleRounded]

theorem assembleRounded_normal {n : Nat} (hlo : 2 ^ fmt.M ≤ n) (hhi : n < 2 ^ (fmt.M + 1)) :
    assembleRounded fmt s rm n e =
      if fmt.emaxf ≤ (e + fmt.bias).toNat then overflowResult fmt s rm
      else pack fmt s (e + fmt.bias).toNat (n - 2 ^ fmt.M) := by
  simp [assembleRounded, hlo, hhi.ne]

theorem assembleRounded_subnormal {n : Nat} (hhi : n < 2 ^ fmt.M) :
    assembleRounded fmt s rm n e = pack fmt s 0 n := by
  have hcarry : n ≠ 2 ^ (fmt.M + 1) := (hhi.trans (Nat.pow_lt_pow_succ one_lt_two)).ne
  simp [assembleRounded, hcarry, hhi.not_ge, fmt.emaxf_pos.ne']

end

/-- FINISH below the least normal exponent: a carry to `2^M` gives exponent field 1 (R64, R96). -/
theorem finish_of_nonpos {i : Intermediate} (fmt : Format) (rm : RoundingMode) (hbe : i.be ≤ 0) {n : Nat}
    (hn : round (clampUnderflow i).m i.s (clampUnderflow i).h (clampUnderflow i).st rm = n) :
    finish fmt i rm = if n = 2 ^ fmt.M then pack fmt i.s 1 0 else pack fmt i.s 0 (n % 2 ^ fmt.M) := by
  have hmax := fmt.one_lt_emaxf
  have hzero : (clampUnderflow i).be = 0 := by rw [clampUnderflow_of_nonpos hbe]
  have hover : ¬ (fmt.emaxf : Int) ≤ i.be := by omega
  unfold finish
  dsimp only
  rw [if_neg hover, hzero, clampUnderflow_s, hn, renormalise, if_pos rfl]
  split
  case isTrue hpromote => rw [if_neg (by dsimp only; omega), hpromote, Nat.mod_self]; rfl
  case isFalse => rw [if_neg (by dsimp only; omega)]; rfl

/-- FINISH above it: no clamp, and a carry raises the exponent by one (R69). -/
theorem finish_of_pos {i : Intermediate} (fmt : Format) (rm : RoundingMode) (hbe : 0 < i.be) :
    finish fmt i rm =
      if (fmt.emaxf : Int) ≤ i.be then overflowResult fmt i.s rm
      else if round i.m i.s i.h i.st rm = 2 ^ (fmt.M + 1) then
        if (fmt.emaxf : Int) ≤ i.be + 1 then overflowResult fmt i.s rm
        else pack fmt i.s (i.be + 1).toNat 0
      else pack fmt i.s i.be.toNat (round i.m i.s i.h i.st rm % 2 ^ fmt.M) := by
  unfold finish
  dsimp only
  rw [clampUnderflow_of_pos hbe, renormalise, if_neg hbe.ne']
  split
  · rfl
  · split
    · rw [Nat.mod_self]
    · rfl

/-- FINISH assembles its rounded candidate as R71 does. -/
theorem finish_eq_assembleRounded {i : Intermediate} {fmt : Format} (rm : RoundingMode)
    (hlo : 2 ^ fmt.M ≤ i.m) (hhi : i.m < 2 ^ (fmt.M + 1)) :
    finish fmt i rm = assembleRounded fmt i.s rm
      (round (clampUnderflow i).m i.s (clampUnderflow i).h (clampUnderflow i).st rm)
      (max i.be 1 - fmt.bias) := by
  have hround := round_cases (clampUnderflow i).m i.s (clampUnderflow i).h (clampUnderflow i).st rm
  have hmax := fmt.one_lt_emaxf
  rcases lt_or_ge 0 i.be with hbe | hbe
  · rw [finish_of_pos fmt rm hbe, max_eq_left (by omega)]
    rw [clampUnderflow_of_pos hbe] at hround ⊢
    generalize round i.m i.s i.h i.st rm = n at *
    have hlo' : 2 ^ fmt.M ≤ n := by omega
    rcases eq_or_ne n (2 ^ (fmt.M + 1)) with rfl | hcarry
    · have hover : fmt.emaxf ≤ (i.be + 1).toNat ↔ (fmt.emaxf : Int) ≤ i.be + 1 := by omega
      rw [if_pos rfl, assembleRounded_carry, show i.be - fmt.bias + 1 + fmt.bias = i.be + 1 by omega]
      simp only [hover]
      split
      · rw [if_pos (by omega)]
      · rfl
    · have hover : fmt.emaxf ≤ i.be.toNat ↔ (fmt.emaxf : Int) ≤ i.be := by omega
      have hhi' : n < 2 ^ (fmt.M + 1) := by omega
      have hfrac : n % 2 ^ fmt.M = n - 2 ^ fmt.M := by
        rw [Nat.mod_eq_sub_mod hlo', Nat.mod_eq_of_lt (by rw [pow_succ] at hhi'; omega)]
      rw [if_neg hcarry, assembleRounded_normal _ _ _ _ hlo' hhi', sub_add_cancel, hfrac]
      simp only [hover]
  · have hsmall : (clampUnderflow i).m < 2 ^ fmt.M := by
      have hshift : 2 ^ 1 ≤ 2 ^ (1 - i.be).toNat := Nat.pow_le_pow_right two_pos (by omega)
      rw [clampUnderflow_of_nonpos hbe, shrJam_fst]
      exact Nat.div_lt_of_lt_mul (hhi.trans_le (by rw [pow_succ']; exact Nat.mul_le_mul_right _ hshift))
    rw [finish_of_nonpos fmt rm hbe rfl, max_eq_right (by omega)]
    generalize round (clampUnderflow i).m i.s (clampUnderflow i).h (clampUnderflow i).st rm = n at *
    rcases eq_or_ne n (2 ^ fmt.M) with rfl | hpromote
    · rw [if_pos rfl, assembleRounded_normal _ _ _ _ le_rfl (Nat.pow_lt_pow_succ one_lt_two), sub_add_cancel,
        if_neg (by omega), Nat.sub_self]
      rfl
    · have hhi' : n < 2 ^ fmt.M := by omega
      rw [if_neg hpromote, assembleRounded_subnormal _ _ _ _ hhi', Nat.mod_eq_of_lt hhi']

/-- FINISH is ROUND_EXACT of what its intermediate represents (R72). -/
theorem finish_eq_roundExact {i : Intermediate} {fmt : Format} {x : ℚ} (rm : RoundingMode)
    (h : i.Represents fmt x) : finish fmt i rm = roundExact fmt i.s x rm := by
  rw [roundExact_eq_of_truncates (clampUnderflow_truncates h), h.roundExponent_eq]
  exact finish_eq_assembleRounded rm h.m_bounds.1 h.m_bounds.2

/-! ### The operations on finite nonzero words (R71, R76, R82, R94) -/

theorem Unpacked.Normalised.order {fmt : Format} {x y : Unpacked} (hx : x.Normalised fmt)
    (hy : y.Normalised fmt) :
    (order x y).1.Normalised fmt ∧ (order x y).2.Normalised fmt := by
  rcases order_cases x y with h | h <;> rw [h]
  · exact ⟨hx, hy⟩
  · exact ⟨hy, hx⟩

/-- ORDER (R85) puts the strictly larger magnitude first where they differ. -/
theorem order_snd_lt_fst {fmt : Format} {x y : Unpacked} (hx : x.Normalised fmt) (hy : y.Normalised fmt)
    (hne : ¬((order x y).1.e = (order x y).2.e ∧ (order x y).1.sig = (order x y).2.sig)) :
    (order x y).2.magnitude fmt < (order x y).1.magnitude fmt := by
  unfold Machine.order at hne ⊢
  split at hne <;> rename_i hord <;> dsimp only at hne
  · rw [if_pos hord, magnitude_lt_iff hy hx]; omega
  · rw [if_neg hord, magnitude_lt_iff hx hy]; omega

/-- The signed value of an unpacked operand. -/
def Unpacked.value (u : Unpacked) (fmt : Format) : ℚ := signFactor u.s * u.magnitude fmt

theorem unpack_value {fmt : Format} {w : Word} (hfin : isFiniteNonzero (classify fmt w) = true) :
    (unpack fmt w).value fmt = rationalValue fmt w := by
  obtain ⟨-, hmag, -⟩ := unpack_spec hfin
  rw [Unpacked.value, hmag, unpack_s, rationalValue]

theorem signFactor_of_ne {s t : Bool} (h : s ≠ t) : signFactor t = -signFactor s := by
  cases s <;> cases t <;> simp_all [signFactor]

/-- Sign and magnitude of a signed value. -/
theorem sign_abs_signFactor_mul (s : Bool) {x : ℚ} (hx : 0 < x) :
    decide (signFactor s * x < 0) = s ∧ |signFactor s * x| = x := by
  cases s with
  | false => simp [signFactor, hx.le, abs_of_pos hx]
  | true => simp [signFactor, hx, abs_of_pos hx]

section
variable {fmt : Format} {x y : Unpacked} (rm : RoundingMode)

/-- Operands of one sign: the adder rounds their exact sum. -/
theorem magAdd_eq_roundExact (hx : x.Normalised fmt) (hy : y.Normalised fmt) (hs : x.s = y.s) :
    magAdd fmt rm x.s x y =
      roundExact fmt (decide (x.value fmt + y.value fmt < 0)) |x.value fmt + y.value fmt| rm := by
  have hsum : x.value fmt + y.value fmt = signFactor x.s * (x.magnitude fmt + y.magnitude fmt) := by
    rw [Unpacked.value, Unpacked.value, ← hs, mul_add]
  obtain ⟨hsign, habs⟩ := sign_abs_signFactor_mul x.s (add_pos hx.magnitude_pos hy.magnitude_pos)
  rw [magAdd, finish_eq_roundExact rm (addIntermediate_represents x.s hx hy), addIntermediate_s, hsum, hsign,
    habs]

/-- Operands of different sign: the subtractor rounds their exact sum, unless it is 0. -/
theorem magSub_eq_roundExact (hx : x.Normalised fmt) (hy : y.Normalised fmt) (hs : x.s ≠ y.s)
    (hsum : x.value fmt + y.value fmt ≠ 0) :
    magSub fmt rm x y =
      roundExact fmt (decide (x.value fmt + y.value fmt < 0)) |x.value fmt + y.value fmt| rm := by
  obtain ⟨hl, hr⟩ := hx.order hy
  have hmagSub : magSub fmt rm x y =
      if (order x y).1.e = (order x y).2.e ∧ (order x y).1.sig = (order x y).2.sig then
        makeZero fmt (zeroSumSign rm)
      else finish fmt (subIntermediate fmt (order x y).1 (order x y).2) rm := rfl
  have hvalue : x.value fmt + y.value fmt =
      signFactor (order x y).1.s * ((order x y).1.magnitude fmt - (order x y).2.magnitude fmt) := by
    rcases order_cases x y with h | h <;> rw [h, Unpacked.value, Unpacked.value]
    · rw [signFactor_of_ne hs]; ring
    · rw [signFactor_of_ne hs.symm]; ring
  rw [hmagSub]
  split
  case isTrue heq =>
    obtain ⟨he, hsig⟩ := heq
    rw [hvalue, magnitude_eq, magnitude_eq, he, hsig, sub_self, mul_zero] at hsum
    exact absurd rfl hsum
  case isFalse hne =>
    have hlt := order_snd_lt_fst hx hy hne
    obtain ⟨hsign, habs⟩ := sign_abs_signFactor_mul (order x y).1.s (sub_pos.mpr hlt)
    rw [finish_eq_roundExact rm (subIntermediate_represents hl hr hlt), subIntermediate_s, hvalue, hsign,
      habs]

end

section
variable {fmt : Format} {a b : Word} (rm : RoundingMode)

theorem addKernel_eq_roundExact (ha : isFiniteNonzero (classify fmt a) = true)
    (hb : isFiniteNonzero (classify fmt b) = true) (hsum : rationalValue fmt a + rationalValue fmt b ≠ 0) :
    addKernel fmt rm a b =
      roundExact fmt (decide (rationalValue fmt a + rationalValue fmt b < 0))
        |rationalValue fmt a + rationalValue fmt b| rm := by
  obtain ⟨hx, -⟩ := unpack_spec ha
  obtain ⟨hy, -⟩ := unpack_spec hb
  rw [← unpack_value ha, ← unpack_value hb] at hsum ⊢
  unfold addKernel
  dsimp only
  split
  case isTrue hs => exact magAdd_eq_roundExact rm hx hy hs
  case isFalse hs => exact magSub_eq_roundExact rm hx hy hs hsum

theorem fadd_of_finite (ha : isFiniteNonzero (classify fmt a) = true)
    (hb : isFiniteNonzero (classify fmt b) = true) : fadd fmt rm a b = addKernel fmt rm a b := by
  rcases classify_cases_of_finite ha with ha | ha <;> rcases classify_cases_of_finite hb with hb | hb <;>
    simp only [fadd, ha, hb]

theorem fmul_of_finite (ha : isFiniteNonzero (classify fmt a) = true)
    (hb : isFiniteNonzero (classify fmt b) = true) : fmul fmt rm a b = mulKernel fmt rm a b := by
  rcases classify_cases_of_finite ha with ha | ha <;> rcases classify_cases_of_finite hb with hb | hb <;>
    simp only [fmul, ha, hb]

theorem fdiv_of_finite (ha : isFiniteNonzero (classify fmt a) = true)
    (hb : isFiniteNonzero (classify fmt b) = true) : fdiv fmt rm a b = divKernel fmt rm a b := by
  rcases classify_cases_of_finite ha with ha | ha <;> rcases classify_cases_of_finite hb with hb | hb <;>
    simp only [fdiv, ha, hb]

theorem fadd_eq_roundExact (ha : isFiniteNonzero (classify fmt a) = true)
    (hb : isFiniteNonzero (classify fmt b) = true) (hsum : rationalValue fmt a + rationalValue fmt b ≠ 0) :
    fadd fmt rm a b =
      roundExact fmt (decide (rationalValue fmt a + rationalValue fmt b < 0))
        |rationalValue fmt a + rationalValue fmt b| rm :=
  (fadd_of_finite rm ha hb).trans (addKernel_eq_roundExact rm ha hb hsum)

theorem fmul_eq_roundExact (ha : isFiniteNonzero (classify fmt a) = true)
    (hb : isFiniteNonzero (classify fmt b) = true) :
    fmul fmt rm a b =
      roundExact fmt (signBit fmt a != signBit fmt b) (magnitude fmt a * magnitude fmt b) rm := by
  obtain ⟨hx, hmagA, -⟩ := unpack_spec ha
  obtain ⟨hy, hmagB, -⟩ := unpack_spec hb
  rw [fmul_of_finite rm ha hb, mulKernel, finish_eq_roundExact rm (mulIntermediate_represents hx hy),
    mulIntermediate_s, hmagA, hmagB, unpack_s, unpack_s]

theorem fdiv_eq_roundExact (ha : isFiniteNonzero (classify fmt a) = true)
    (hb : isFiniteNonzero (classify fmt b) = true) :
    fdiv fmt rm a b =
      roundExact fmt (signBit fmt a != signBit fmt b) (magnitude fmt a / magnitude fmt b) rm := by
  obtain ⟨hx, hmagA, -⟩ := unpack_spec ha
  obtain ⟨hy, hmagB, -⟩ := unpack_spec hb
  rw [fdiv_of_finite rm ha hb, divKernel, finish_eq_roundExact rm (divIntermediate_represents hx hy),
    divIntermediate_s, hmagA, hmagB, unpack_s, unpack_s]

/-- Flipping the sign bit (R81) changes the sign field only. -/
theorem fields_flipSign (fmt : Format) (b : Word) :
    fields fmt (flipSign fmt b) = ⟨!(fields fmt b).s, (fields fmt b).f, (fields fmt b).t⟩ := by
  have hW := fmt.W_pred
  have hnat : (flipSign fmt b).toNat = b.toNat ^^^ 2 ^ (fmt.W - 1) := by
    have hlt : 2 ^ (fmt.W - 1) < 2 ^ 32 :=
      Nat.pow_lt_pow_right one_lt_two (fmt.W_pred_lt.trans_le fmt.W_le)
    rw [flipSign, BitVec.toNat_xor, BitVec.toNat_ofNat, Nat.mod_eq_of_lt hlt]
  simp only [fields, hnat, Fields.mk.injEq]
  refine ⟨?_, Nat.eq_of_testBit_eq fun i => ?_, Nat.eq_of_testBit_eq fun i => ?_⟩
  · simp [Nat.testBit_xor]
  · simp only [Nat.testBit_mod_two_pow, Nat.testBit_div_two_pow, Nat.testBit_xor, Nat.testBit_two_pow]
    by_cases hi : i < fmt.E
    · simp [show fmt.W - 1 ≠ i + fmt.M by omega]
    · simp [hi]
  · simp only [Nat.testBit_mod_two_pow, Nat.testBit_xor, Nat.testBit_two_pow]
    by_cases hi : i < fmt.M
    · simp [show fmt.W - 1 ≠ i by omega]
    · simp [hi]

@[simp] theorem classify_flipSign (fmt : Format) (b : Word) :
    classify fmt (flipSign fmt b) = classify fmt b := by simp [classify, fields_flipSign]

@[simp] theorem rationalValue_flipSign (fmt : Format) (b : Word) :
    rationalValue fmt (flipSign fmt b) = -rationalValue fmt b := by
  have hmag : magnitude fmt (flipSign fmt b) = magnitude fmt b := by simp [magnitude, fields_flipSign]
  have hs : signBit fmt (flipSign fmt b) = !signBit fmt b := by simp [signBit, fields_flipSign]
  have hfactor := signFactor_of_ne (Bool.not_ne_self (signBit fmt b)).symm
  rw [rationalValue, rationalValue, hmag, hs, hfactor, neg_mul]

theorem fsub_eq_roundExact (ha : isFiniteNonzero (classify fmt a) = true)
    (hb : isFiniteNonzero (classify fmt b) = true) (hdiff : rationalValue fmt a - rationalValue fmt b ≠ 0) :
    fsub fmt rm a b =
      roundExact fmt (decide (rationalValue fmt a - rationalValue fmt b < 0))
        |rationalValue fmt a - rationalValue fmt b| rm := by
  rw [sub_eq_add_neg, ← rationalValue_flipSign] at hdiff ⊢
  exact fadd_eq_roundExact rm ha (by rwa [classify_flipSign]) hdiff

end

/-! ### The instructions' meanings on the operand ports -/

section
variable (fmt : Format) (s : State)

@[simp] theorem signBit_operandA : signBit fmt (operandA fmt s) = signBit fmt s.a := signBit_formatWord ..
@[simp] theorem signBit_operandB : signBit fmt (operandB fmt s) = signBit fmt s.b := signBit_formatWord ..
@[simp] theorem magnitude_operandA : magnitude fmt (operandA fmt s) = magnitude fmt s.a :=
  magnitude_formatWord ..
@[simp] theorem magnitude_operandB : magnitude fmt (operandB fmt s) = magnitude fmt s.b :=
  magnitude_formatWord ..
@[simp] theorem rationalValue_operandA : rationalValue fmt (operandA fmt s) = rationalValue fmt s.a :=
  rationalValue_formatWord ..
@[simp] theorem rationalValue_operandB : rationalValue fmt (operandB fmt s) = rationalValue fmt s.b :=
  rationalValue_formatWord ..

/-- The next state of an instruction that drives a word of given value. -/
theorem next_driveOutputs {v w : Word} (h : v = w) :
    (.next (driveOutputs v 0 s) : Host.Outcome State Fault Refusal) =
      .next { s with res := w, inv := 0, settled := true } := by
  rw [h]
  rfl

variable {fmt s} (rm : RoundingMode)

theorem BothFinite.operands (h : BothFinite fmt s) :
    isFiniteNonzero (classify fmt (operandA fmt s)) = true ∧
      isFiniteNonzero (classify fmt (operandB fmt s)) = true := by
  rw [operandA, operandB, classify_formatWord, classify_formatWord]
  exact h

theorem fmul_operands (h : BothFinite fmt s) :
    fmul fmt rm (operandA fmt s) (operandB fmt s) =
      roundExact fmt (signBit fmt s.a != signBit fmt s.b) (magnitude fmt s.a * magnitude fmt s.b) rm := by
  obtain ⟨ha, hb⟩ := BothFinite.operands h
  rw [fmul_eq_roundExact rm ha hb, signBit_operandA, signBit_operandB, magnitude_operandA, magnitude_operandB]

theorem fdiv_operands (h : BothFinite fmt s) :
    fdiv fmt rm (operandA fmt s) (operandB fmt s) =
      roundExact fmt (signBit fmt s.a != signBit fmt s.b) (magnitude fmt s.a / magnitude fmt s.b) rm := by
  obtain ⟨ha, hb⟩ := BothFinite.operands h
  rw [fdiv_eq_roundExact rm ha hb, signBit_operandA, signBit_operandB, magnitude_operandA, magnitude_operandB]

theorem fadd_operands (h : BothFinite fmt s) (hsum : rationalValue fmt s.a + rationalValue fmt s.b ≠ 0) :
    fadd fmt rm (operandA fmt s) (operandB fmt s) =
      roundExact fmt (decide (rationalValue fmt s.a + rationalValue fmt s.b < 0))
        |rationalValue fmt s.a + rationalValue fmt s.b| rm := by
  obtain ⟨ha, hb⟩ := BothFinite.operands h
  rw [← rationalValue_operandA, ← rationalValue_operandB] at hsum ⊢
  exact fadd_eq_roundExact rm ha hb hsum

theorem fsub_operands (h : BothFinite fmt s) (hdiff : rationalValue fmt s.a - rationalValue fmt s.b ≠ 0) :
    fsub fmt rm (operandA fmt s) (operandB fmt s) =
      roundExact fmt (decide (rationalValue fmt s.a - rationalValue fmt s.b < 0))
        |rationalValue fmt s.a - rationalValue fmt s.b| rm := by
  obtain ⟨ha, hb⟩ := BothFinite.operands h
  rw [← rationalValue_operandA, ← rationalValue_operandB] at hdiff ⊢
  exact fsub_eq_roundExact rm ha hb hdiff

end

/-! ### Widths and exponent ranges (R74) -/

theorem order_fst_e (x y : Unpacked) : (order x y).1.e = max x.e y.e := by
  unfold Machine.order
  split <;> dsimp only <;> omega

section
variable {fmt : Format} {x y : Unpacked}

theorem mulIntermediate_be_cases (fmt : Format) (x y : Unpacked) :
    (mulIntermediate fmt x y).be = x.e + y.e + fmt.bias ∨
      (mulIntermediate fmt x y).be = x.e + y.e + fmt.bias + 1 := by
  unfold mulIntermediate
  dsimp only
  split
  · exact .inr rfl
  · exact .inl rfl

theorem divIntermediate_be_cases (fmt : Format) (x y : Unpacked) :
    (divIntermediate fmt x y).be = x.e - y.e + fmt.bias ∨
      (divIntermediate fmt x y).be = x.e - y.e + fmt.bias - 1 := by
  unfold divIntermediate
  dsimp only
  split
  · exact .inl rfl
  · exact .inr rfl

/-- The adder's exponent is that of its larger operand, or one more. -/
theorem addIntermediate_be_cases (fmt : Format) (s : Bool) (x y : Unpacked) :
    (addIntermediate fmt s x y).be = max x.e y.e + fmt.bias ∨
      (addIntermediate fmt s x y).be = max x.e y.e + fmt.bias + 1 := by
  have hmax : (alignOrder x y).1.e = max x.e y.e := by
    rcases alignOrder_cases x y with ⟨h, he⟩ | ⟨h, he⟩ <;> rw [h]
    · exact (max_eq_left he).symm
    · exact (max_eq_right he.le).symm
  unfold addIntermediate
  dsimp only
  rw [hmax]
  split
  · exact .inr rfl
  · exact .inl rfl

/-- The subtractor's exponent falls by the left shift, `M + 3` places at most. -/
theorem subIntermediate_be_bounds {l r : Unpacked} (hl : l.Normalised fmt) (hr : r.Normalised fmt)
    (hlt : r.magnitude fmt < l.magnitude fmt) :
    l.e + fmt.bias - (fmt.M + 3) ≤ (subIntermediate fmt l r).be ∧
      (subIntermediate fmt l r).be ≤ l.e + fmt.bias := by
  obtain ⟨hD, -⟩ := alignedDifference_spec hl hr (exactDifference_pos hl hr hlt)
  obtain ⟨z, hz, hnorm, -⟩ := leftNormalize_spec (l.e + fmt.bias) hD (alignedDifference_lt hl r)
  unfold subIntermediate
  rw [hnorm]
  dsimp only
  omega

/-- The aligned sum has one carry place at most. -/
theorem alignedSum_lt {l r : Unpacked} (hl : l.Normalised fmt) (hr : r.Normalised fmt) (d : Nat) :
    l.sig + (shrJam r.sig false false d).1 < 2 ^ (fmt.M + 2) := by
  have hle : r.sig / 2 ^ d ≤ r.sig := Nat.div_le_self _ _
  obtain ⟨-, hl⟩ := hl
  obtain ⟨-, hr⟩ := hr
  rw [shrJam_fst]
  rw [pow_succ] at hl hr ⊢
  rw [pow_succ]
  omega

theorem extraBits_lt (h : x.Normalised fmt) : x.sig <<< 3 < 2 ^ (fmt.M + 4) := by
  obtain ⟨-, h⟩ := h
  rw [Nat.shiftLeft_eq]
  rw [pow_add] at h ⊢
  omega

theorem dividend_lt (h : x.Normalised fmt) : x.sig <<< (fmt.M + 3) < 2 ^ (2 * fmt.M + 4) := by
  have hpow : 2 ^ (2 * fmt.M + 4) = 2 ^ (fmt.M + 1) * 2 ^ (fmt.M + 3) := by ring
  rw [Nat.shiftLeft_eq, hpow]
  exact Nat.mul_lt_mul_of_pos_right h.2 (by positivity)

theorem remainder_lt (h : y.Normalised fmt) (N : Nat) : N % y.sig < 2 ^ (fmt.M + 1) :=
  (Nat.mod_lt N ((Nat.two_pow_pos _).trans_le h.1)).trans h.2

theorem Unpacked.Normalised.alignOrder (hx : x.Normalised fmt) (hy : y.Normalised fmt) :
    (alignOrder x y).1.Normalised fmt ∧ (alignOrder x y).2.Normalised fmt := by
  rcases alignOrder_cases x y with ⟨h, -⟩ | ⟨h, -⟩ <;> rw [h]
  · exact ⟨hx, hy⟩
  · exact ⟨hy, hx⟩

/-- SHR_JAM of a significand may saturate at `M + 2`. -/
theorem shrJam_min {m : Nat} (h st : Bool) (d : Nat) (hm : m < 2 ^ (fmt.M + 1)) :
    shrJam m h st d = shrJam m h st (min d (fmt.M + 2)) := by
  rcases le_total d (fmt.M + 2) with hd | hd
  · rw [min_eq_left hd]
  · rw [min_eq_right hd, shrJam_saturated h st hm (by omega), shrJam_saturated h st hm (by omega)]

/-- JAM of an extended significand may saturate at `M + 4`. -/
theorem jam_min {n : Nat} (d : Nat) (hn : n < 2 ^ (fmt.M + 4)) : jam n d = jam n (min d (fmt.M + 4)) := by
  rcases le_total d (fmt.M + 4) with hd | hd
  · rw [min_eq_left hd]
  · rw [min_eq_right hd, jam_saturated hn hd, jam_saturated hn le_rfl]

end

end Machine

end Sys2Proof

namespace Sys2Proof.Proofs.Datapath

open Sys2Proof.Machine

/-- Settles O8: FIELDS undoes PACK, and a packed word lies in its format's width. -/
theorem packPlacesItsFields : Obligations.PackPlacesItsFields :=
  fun fmt s f t hf ht => ⟨fields_pack s hf ht, pack_lt fmt s f t⟩

/-- Settles O26: the branches of CLASSIFY are the five conditions, since the exponent field is at most
EMAXF. -/
theorem classifyIsByExponentAndMantissa : Obligations.ClassifyIsByExponentAndMantissa := by
  intro fmt w
  have hpos := fmt.emaxf_pos
  have hle := fields_f_le fmt w
  unfold classify
  dsimp only
  split_ifs <;> simp <;> omega

/-- Settles O27. -/
theorem subnormalNormalizeMovesTheLeadingOne : Obligations.SubnormalNormalizeMovesTheLeadingOne :=
  fun _ _ h0 hlt => subnormalNormalize_spec h0 hlt

/-- Settles O28: `unpack_spec`, whose significand is nonzero. -/
theorem unpackIsExactAndNormalised : Obligations.UnpackIsExactAndNormalised := by
  intro fmt w hfin
  obtain ⟨hnorm, hmag, hlo, hhi⟩ := unpack_spec hfin
  exact ⟨hnorm, unpack_s fmt w, hmag, hlo, hhi, magnitude_pos hfin⟩

/-- Settles O30, row by row of the table. -/
theorem overflowTable : Obligations.OverflowTable := by
  intro fmt s
  cases s with
  | false => exact ⟨rfl, rfl, rfl, rfl⟩
  | true => exact ⟨rfl, rfl, rfl, rfl⟩

/-- Settles O31: ROUND adds the bit ROUND_INC decides, whose condition each mode states. -/
theorem roundingModesIncrement : Obligations.RoundingModesIncrement := by
  intro m s h st
  have hbit : m.testBit 0 = decide (m % 2 = 1) := Nat.testBit_zero m
  refine ⟨rfl, ?_, ?_, ?_⟩
  · cases h with
    | false => cases st <;> simp [Machine.round, roundInc]
    | true => by_cases hodd : m % 2 = 1 <;> cases st <;> simp [Machine.round, roundInc, hbit, hodd]
  · cases s <;> cases h <;> cases st <;> rfl
  · cases s <;> cases h <;> cases st <;> rfl

/-- Settles O32: the shifted-out part by `shrJam_pos`, the saturation by `shrJam_saturated`. -/
theorem shrJamDescribesTheDiscardedPart : Obligations.ShrJamDescribesTheDiscardedPart := by
  refine ⟨shrJam_zero, fun m h st d hd => ?_, fun fmt m d hlo hhi => ⟨fun hd => ?_, fun hd => ?_⟩⟩
  · rw [shrJam_pos m h st hd.ne']
    refine ⟨rfl, rfl, ?_⟩
    rw [Bool.or_eq_true, Bool.or_eq_true, decide_eq_true_iff, mod_two_pow_ne_zero_iff, or_assoc]
  · have hone : m / 2 ^ fmt.M = 1 := Nat.div_eq_of_lt_le (by omega) (by rw [pow_succ] at hhi; omega)
    rw [hd, shrJam_pos m false false (Nat.succ_ne_zero _)]
    exact (testBit_eq_true_iff m fmt.M).mpr (by rw [hone])
  · have hne : m ≠ 0 := ((Nat.two_pow_pos _).trans_le hlo).ne'
    rw [shrJam_saturated false false hhi hd]
    simp [hne]

/-- Settles O33: bit 0 of JAM is the last kept bit or any lower one; the bits above it are the shift's. -/
theorem jamKeepsTheDiscardedBitsInBitZero : Obligations.JamKeepsTheDiscardedBitsInBitZero := by
  refine ⟨fun x d i hi => ?_, fun x d => ?_, fun fmt x d h0 hlt hd => ?_⟩
  · rw [jam_eq, Nat.testBit_or, Nat.testBit_div_two_pow, Nat.testBit_bool_toNat]
    simp [hi.ne']
  · rw [jam_eq, Nat.testBit_or, Nat.testBit_div_two_pow, Nat.testBit_bool_toNat, Nat.zero_add,
      Bool.or_eq_true, decide_eq_true rfl, Bool.true_and, decide_eq_true_iff, mod_two_pow_ne_zero_iff]
    constructor
    · rintro (h | ⟨i, hi, h⟩)
      · exact ⟨d, le_rfl, h⟩
      · exact ⟨i, hi.le, h⟩
    · rintro ⟨i, hi, h⟩
      rcases hi.eq_or_lt with rfl | hi
      · exact .inl h
      · exact .inr ⟨i, hi, h⟩
  · rw [jam_saturated hlt hd, decide_eq_true h0.ne']
    rfl

/-- Settles O34. -/
theorem leftNormalizeReachesTheLeadingPosition : Obligations.LeftNormalizeReachesTheLeadingPosition :=
  fun _ _ be h0 hlt => leftNormalize_spec be h0 hlt

/-- Settles O36. -/
theorem multiplyIntermediateIsTheExactProduct : Obligations.MultiplyIntermediateIsTheExactProduct :=
  fun fmt x y hx hy => ⟨mulIntermediate_represents hx hy, mulIntermediate_s fmt x y⟩

/-- Settles O37. -/
theorem addIntermediateIsTheExactSum : Obligations.AddIntermediateIsTheExactSum :=
  fun fmt s x y hx hy => ⟨addIntermediate_represents s hx hy, addIntermediate_s fmt s x y⟩

/-- Settles O38. -/
theorem subtractIntermediateIsTheExactDifference : Obligations.SubtractIntermediateIsTheExactDifference :=
  fun fmt l r hl hr hlt => ⟨subIntermediate_represents hl hr hlt, subIntermediate_s fmt l r⟩

/-- Settles O39. -/
theorem divideIntermediateIsTheExactQuotient : Obligations.DivideIntermediateIsTheExactQuotient :=
  fun fmt x y hx hy => ⟨divIntermediate_represents hx hy, divIntermediate_s fmt x y⟩

/-- Settles O42: the clamped candidate is the cut R71 rounds, and both assemble it alike. -/
theorem finishComputesRoundExact : Obligations.FinishComputesRoundExact :=
  fun _ _ _ rm h => finish_eq_roundExact rm h

/-- Settles O43: FINISH packs the sign beside fields that are no NaN's, overflow included. -/
theorem finishKeepsTheSign : Obligations.FinishKeepsTheSign := by
  intro fmt i rm
  rcases finish_cases fmt i rm with h | ⟨f, t, hf, -, h⟩
  · rcases overflowResult_cases fmt i.s rm with hover | hover <;> rw [h, hover]
    · exact ⟨fields_pack_s .., classify_makeInf_ne_nan fmt i.s⟩
    · exact ⟨fields_pack_s .., classify_pack_ne_nan fmt i.s (Nat.sub_lt fmt.emaxf_pos Nat.one_pos)⟩
  · rw [h]
    exact ⟨fields_pack_s .., classify_pack_ne_nan fmt i.s hf⟩

/-- Settles O44: FINISH below the least normal exponent promotes exactly this candidate. -/
theorem subnormalCarryPromotesToTheSmallestNormal :
    Obligations.SubnormalCarryPromotesToTheSmallestNormal := by
  intro fmt i rm hbe _ hround
  rw [finish_of_nonpos fmt rm hbe hround, if_pos rfl]

/-- Settles O47: the kernel's finished word on the two operand ports, driven with `inv` 0. -/
theorem multiplyRoundsTheExactProduct : Obligations.MultiplyRoundsTheExactProduct :=
  fun rm s => ⟨fun h => next_driveOutputs s (fmul_operands rm h),
    fun h => next_driveOutputs s (fmul_operands rm h)⟩

/-- Settles O50: likewise, with the sum's own sign and magnitude. -/
theorem addRoundsTheExactSum : Obligations.AddRoundsTheExactSum :=
  fun rm s => ⟨fun h hsum => next_driveOutputs s (fadd_operands rm h hsum),
    fun h hsum => next_driveOutputs s (fadd_operands rm h hsum)⟩

/-- Settles O54: the sum with the flipped word, whose value is the negative of `b`'s. -/
theorem subtractRoundsTheExactDifference : Obligations.SubtractRoundsTheExactDifference :=
  fun rm s => ⟨fun h hdiff => next_driveOutputs s (fsub_operands rm h hdiff),
    fun h hdiff => next_driveOutputs s (fsub_operands rm h hdiff)⟩

/-- Settles O57: as for the product. -/
theorem divideRoundsTheExactQuotient : Obligations.DivideRoundsTheExactQuotient :=
  fun rm s => ⟨fun h => next_driveOutputs s (fdiv_operands rm h),
    fun h => next_driveOutputs s (fdiv_operands rm h)⟩

/-- Settles O58: each operation answers a result word, or an operand that is no NaN. -/
theorem onlyTheCanonicalNanIsProduced : Obligations.OnlyTheCanonicalNanIsProduced := by
  refine ⟨fun fmt => fields_pack false le_rfl (Nat.sub_lt (by positivity) two_pos), ?_⟩
  have hadd : ∀ fmt rm a b, classify fmt (fadd fmt rm a b) = .nan → fadd fmt rm a b = makeNan fmt := by
    intro fmt rm a b hnan
    rcases fadd_cases fmt rm a b with h | ⟨h, hfin⟩ | ⟨h, hfin⟩
    · exact h.2 hnan
    · exact absurd (h ▸ hnan) hfin
    · exact absurd (h ▸ hnan) hfin
  rintro fmt rm a b w (rfl | rfl | rfl | rfl) hnan
  · exact (fmul_isResultWord fmt rm a b).2 hnan
  · exact hadd fmt rm a b hnan
  · exact hadd fmt rm a (flipSign fmt b) hnan
  · exact (fdiv_isResultWord fmt rm a b).2 hnan

/-- Settles O41: widths from the normalised significands, exponents from the operands' range (R57). -/
theorem datapathWidthsSuffice : Obligations.DatapathWidthsSuffice := by
  refine ⟨fun fmt a b ha hb => ?_, fun _ _ h st d hm => shrJam_min h st d hm,
    fun _ _ d hn => jam_min d hn, by decide⟩
  intro x y M within l r A B N
  obtain ⟨hx, -, hxlo, hxhi⟩ : x.Normalised fmt ∧ x.magnitude fmt = magnitude fmt a ∧
    fmt.emin - fmt.M ≤ x.e ∧ x.e ≤ fmt.emax := unpack_spec ha
  obtain ⟨hy, -, hylo, hyhi⟩ : y.Normalised fmt ∧ y.magnitude fmt = magnitude fmt b ∧
    fmt.emin - fmt.M ≤ y.e ∧ y.e ≤ fmt.emax := unpack_spec hb
  obtain ⟨hl, hr⟩ := hx.alignOrder hy
  obtain ⟨hA, hB⟩ := hx.order hy
  have hsub : ¬(A.e = B.e ∧ A.sig = B.sig) → (subIntermediate fmt A B).m < 2 ^ (M + 1) ∧
      A.e + fmt.bias - (M + 3) ≤ (subIntermediate fmt A B).be ∧
        (subIntermediate fmt A B).be ≤ A.e + fmt.bias := by
    intro hne
    have hlt := order_snd_lt_fst hx hy hne
    exact ⟨(subIntermediate_represents hA hB hlt).m_bounds.2, subIntermediate_be_bounds hA hB hlt⟩
  have hrange : within (mulIntermediate fmt x y).be (-33, 46) (-171, 382) ∧
      within (divIntermediate fmt x y).be (-25, 54) (-150, 403) ∧
        within (addIntermediate fmt x.s x y).be (-9, 31) (-22, 255) ∧
          (¬(A.e = B.e ∧ A.sig = B.sig) → within (subIntermediate fmt A B).be (-22, 30) (-48, 254)) := by
    have hmul := mulIntermediate_be_cases fmt x y
    have hdiv := divIntermediate_be_cases fmt x y
    have hadd := addIntermediate_be_cases fmt x.s x y
    have hAe : A.e = max x.e y.e := order_fst_e x y
    rcases fmt.exponent_numerals with ⟨rfl, hmin, hmax, hbias, hM⟩ | ⟨rfl, hmin, hmax, hbias, hM⟩ <;>
      refine ⟨?_, ?_, ?_, fun hne => ?_⟩ <;> dsimp only [within]
    · omega
    · omega
    · omega
    · have := hsub hne; omega
    · omega
    · omega
    · omega
    · have := hsub hne; omega
  obtain ⟨hmul, hdiv, hadd, hsubRange⟩ := hrange
  exact ⟨⟨hx.2, (normalised_mul hx hy).2, alignedSum_lt hl hr _⟩,
    ⟨extraBits_lt hA, jam_lt (Nat.succ_pos _) (extraBits_lt hB), alignedDifference_lt hA B⟩,
    ⟨dividend_lt hx, (normalised_div hx hy).2, remainder_lt hy N⟩,
    ⟨(mulIntermediate_represents hx hy).m_bounds.2, hmul⟩, ⟨(divIntermediate_represents hx hy).m_bounds.2, hdiv⟩,
    ⟨(addIntermediate_represents x.s hx hy).m_bounds.2, hadd⟩, fun hne =>
      let ⟨hm, hlo, hhi⟩ := hsub hne
      ⟨hm, hlo, hhi, hsubRange hne⟩⟩

end Sys2Proof.Proofs.Datapath
end

section
/-!
SUPPORT. Multiply (41_multiply.md): R76's table of special operands as an equation per row of `fmul`, and
the sign a product carries (R78). FMUL is commutative, so a row is proved for one order of its operands.
-/

namespace Sys2Proof.Machine

/-! ### Operands in either order -/

theorem mulIntermediate_comm (fmt : Format) (x y : Unpacked) :
    mulIntermediate fmt x y = mulIntermediate fmt y x := by
  simp only [mulIntermediate, Nat.mul_comm x.sig, Int.add_comm x.e, Bool.xor_comm x.s]

theorem mulKernel_comm (fmt : Format) (rm : RoundingMode) (a b : Word) :
    mulKernel fmt rm a b = mulKernel fmt rm b a := by
  rw [mulKernel, mulIntermediate_comm, mulKernel]

theorem fmul_comm (fmt : Format) (rm : RoundingMode) (a b : Word) : fmul fmt rm a b = fmul fmt rm b a := by
  unfold fmul
  dsimp only
  rw [Bool.xor_comm, mulKernel_comm]
  cases classify fmt a <;> cases classify fmt b <;> rfl

/-- FMUL reads the format words of its operands only (20_memory.md R29). -/
@[simp] theorem fmul_formatWord (fmt : Format) (rm : RoundingMode) (a b : Word) :
    fmul fmt rm (formatWord fmt a) (formatWord fmt b) = fmul fmt rm a b := by
  simp only [fmul, mulKernel, classify_formatWord, signBit_formatWord, unpack_formatWord]

section
variable {fmt : Format} (rm : RoundingMode) {a b : Word}

/-! ### The rows of R76 -/

theorem fmul_of_nan (h : classify fmt a = .nan ∨ classify fmt b = .nan) :
    fmul fmt rm a b = makeNan fmt := by
  have hleft : ∀ {a b : Word}, classify fmt a = .nan → fmul fmt rm a b = makeNan fmt := by
    intro a b ha
    simp only [fmul, ha]
  rcases h with ha | hb
  · exact hleft ha
  · rw [fmul_comm]
    exact hleft hb

theorem fmul_of_infinity_zero (ha : classify fmt a = .infinity) (hb : classify fmt b = .zero) :
    fmul fmt rm a b = makeNan fmt := by
  simp only [fmul, ha, hb]

theorem fmul_of_infinity (ha : classify fmt a = .infinity) (hnan : classify fmt b ≠ .nan)
    (hzero : classify fmt b ≠ .zero) :
    fmul fmt rm a b = makeInf fmt (signBit fmt a != signBit fmt b) := by
  cases hb : classify fmt b with
  | nan => exact absurd hb hnan
  | zero => exact absurd hb hzero
  | subnormal | normal | infinity => simp only [fmul, ha, hb]

theorem fmul_of_zero (ha : classify fmt a = .zero) (hnan : classify fmt b ≠ .nan)
    (hinf : classify fmt b ≠ .infinity) :
    fmul fmt rm a b = makeZero fmt (signBit fmt a != signBit fmt b) := by
  cases hb : classify fmt b with
  | nan => exact absurd hb hnan
  | infinity => exact absurd hb hinf
  | zero | subnormal | normal => simp only [fmul, ha, hb]

end

section
variable (fmt : Format) (rm : RoundingMode) (a b : Word)

/-! ### The sign of a product (R78) -/

/-- What FMUL can answer: the canonical NaN, or a word made with the sign of the product. -/
theorem fmul_cases :
    fmul fmt rm a b = makeNan fmt ∨
      fmul fmt rm a b = makeInf fmt (signBit fmt a != signBit fmt b) ∨
        fmul fmt rm a b = makeZero fmt (signBit fmt a != signBit fmt b) ∨
          fmul fmt rm a b = mulKernel fmt rm a b := by
  unfold fmul
  dsimp only
  split
  case h_1 | h_2 | h_3 | h_4 => exact .inl rfl
  case h_5 | h_6 => exact .inr (.inl rfl)
  case h_7 | h_8 => exact .inr (.inr (.inl rfl))
  case h_9 => exact .inr (.inr (.inr rfl))

theorem classify_makeNan : classify fmt (makeNan fmt) = .nan := by cases fmt <;> rfl

theorem signBit_mulKernel :
    signBit fmt (mulKernel fmt rm a b) = (signBit fmt a != signBit fmt b) := by
  obtain ⟨hsign, -⟩ :=
    Proofs.Datapath.finishKeepsTheSign fmt (mulIntermediate fmt (unpack fmt a) (unpack fmt b)) rm
  rw [mulKernel, hsign, mulIntermediate_s, unpack_s, unpack_s]

end

end Sys2Proof.Machine

namespace Sys2Proof.Proofs.Multiply

open Sys2Proof.Machine

/-- Settles O46: each instruction drives `fmul` of the operand ports, and the clauses are the rows of R76;
a clause about `b` is the row for `a` with the operands exchanged. -/
theorem multiplyResolvesSpecialOperands : Obligations.MultiplyResolvesSpecialOperands := by
  intro rm s out
  have hout : ∀ fmt i,
      exec i s = .next (driveOutputs (fmul fmt rm (operandA fmt s) (operandB fmt s)) 0 s) → out fmt i := by
    intro fmt i hexec
    have hgives {w : Word} (h : fmul fmt rm s.a s.b = w) :
        exec i s = .next { s with res := w, inv := 0, settled := true } :=
      hexec.trans (next_driveOutputs s ((fmul_formatWord ..).trans h))
    have hgives_comm {w : Word} (h : fmul fmt rm s.b s.a = w) :
        exec i s = .next { s with res := w, inv := 0, settled := true } :=
      hgives ((fmul_comm ..).trans h)
    have hsign : (signBit fmt s.a != signBit fmt s.b) = (signBit fmt s.b != signBit fmt s.a) := bne_comm
    refine ⟨fun h => hgives (fmul_of_nan rm h), ?_, fun ⟨ha, hnan, hzero⟩ => ?_,
      fun ⟨hb, hnan, hzero⟩ => ?_, fun ⟨ha, hnan, hinf⟩ => ?_, fun ⟨hb, hnan, hinf⟩ => ?_,
      fun ⟨ha, hb⟩ => hgives (fmul_of_finite rm ha hb)⟩
    · rintro (⟨ha, hb⟩ | ⟨ha, hb⟩)
      · exact hgives (fmul_of_infinity_zero rm ha hb)
      · exact hgives_comm (fmul_of_infinity_zero rm hb ha)
    · exact hgives (fmul_of_infinity rm ha hnan hzero)
    · rw [hsign]
      exact hgives_comm (fmul_of_infinity rm hb hnan hzero)
    · exact hgives (fmul_of_zero rm ha hnan hinf)
    · rw [hsign]
      exact hgives_comm (fmul_of_zero rm hb hnan hinf)
  exact ⟨hout .half (.fmulH rm) rfl, hout .single (.fmulS rm) rfl⟩

/-- Settles O48: infinities and zeros are packed with the sign, and FINISH keeps the kernel's. -/
theorem multiplySignIsXor : Obligations.MultiplySignIsXor := by
  intro fmt rm a b hnan
  rcases fmul_cases fmt rm a b with h | h | h | h
  · rw [h] at hnan
    exact absurd (classify_makeNan fmt) hnan
  · rw [h]
    exact fields_pack_s ..
  · rw [h]
    exact fields_pack_s ..
  · rw [h]
    exact signBit_mulKernel ..

end Sys2Proof.Proofs.Multiply
end

section
/-!
SUPPORT. Add and subtract (42_add_subtract.md): the order of magnitudes and what MAG_SUB answers (R85, R86),
the permitted shortcut (R88), R82's table of special operands as an equation per row of `fadd`, the flipped
word of a subtract (R81), and sums in the subnormal range (R89).
-/

namespace Sys2Proof.Machine

section
variable {fmt : Format} {x y l r : Unpacked} (rm : RoundingMode)

/-! ### Ordered magnitudes (R85, R86) -/

theorem order_of_magnitude_le (hx : x.Normalised fmt) (hy : y.Normalised fmt)
    (hle : y.magnitude fmt ≤ x.magnitude fmt) : order x y = (x, y) := by
  have hnot := (magnitude_lt_iff hx hy).not.mp hle.not_gt
  exact if_pos (by omega)

theorem order_of_magnitude_lt (hx : x.Normalised fmt) (hy : y.Normalised fmt)
    (hlt : x.magnitude fmt < y.magnitude fmt) : order x y = (y, x) := by
  have hlex := (magnitude_lt_iff hx hy).mp hlt
  exact if_neg (by omega)

/-- Normalised operands are equal in exponent and significand exactly where their magnitudes are. -/
theorem magnitude_eq_iff (hl : l.Normalised fmt) (hr : r.Normalised fmt) :
    l.magnitude fmt = r.magnitude fmt ↔ l.e = r.e ∧ l.sig = r.sig := by
  have hlt := magnitude_lt_iff hl hr
  have hgt := magnitude_lt_iff hr hl
  constructor
  · intro heq
    have hnlt := hlt.not.mp heq.not_lt
    have hngt := hgt.not.mp heq.not_gt
    omega
  · rintro ⟨he, hsig⟩
    rw [magnitude_eq, magnitude_eq, he, hsig]

/-- MAG_SUB of unequal magnitudes finishes their difference, the larger one first. -/
theorem magSub_of_order_lt (hl : l.Normalised fmt) (hr : r.Normalised fmt) (hord : order x y = (l, r))
    (hlt : r.magnitude fmt < l.magnitude fmt) :
    magSub fmt rm x y = finish fmt (subIntermediate fmt l r) rm := by
  unfold magSub
  rw [hord]
  exact if_neg ((magnitude_eq_iff hl hr).not.mp hlt.ne')

/-- MAG_SUB of equal magnitudes is the zero of R86. -/
theorem magSub_of_magnitude_eq (hx : x.Normalised fmt) (hy : y.Normalised fmt)
    (heq : x.magnitude fmt = y.magnitude fmt) : magSub fmt rm x y = makeZero fmt (zeroSumSign rm) := by
  unfold magSub
  rw [order_of_magnitude_le hx hy heq.ge]
  exact if_pos ((magnitude_eq_iff hx hy).mp heq)

theorem signBit_magSub_of_order_lt (hl : l.Normalised fmt) (hr : r.Normalised fmt)
    (hord : order x y = (l, r)) (hlt : r.magnitude fmt < l.magnitude fmt) :
    signBit fmt (magSub fmt rm x y) = l.s := by
  obtain ⟨hsign, -⟩ := Proofs.Datapath.finishKeepsTheSign fmt (subIntermediate fmt l r) rm
  rw [magSub_of_order_lt rm hl hr hord hlt, hsign, subIntermediate_s]

/-! ### The shortcut (R88) -/

/-- A significand shifted by at least `M + 3` places, with its three extra bits, leaves only the jammed bit:
at `M + 3` its leading one is still there, beyond it nothing is. -/
theorem jam_far (hr : r.Normalised fmt) {d : Nat} (hd : fmt.M + 3 ≤ d) : jam (8 * r.sig) d = 1 := by
  obtain ⟨hlo, hhi⟩ := hr
  have hhi' : 8 * r.sig < 2 ^ (fmt.M + 4) := by rw [pow_succ] at hhi; rw [pow_add]; omega
  rcases hd.eq_or_lt with rfl | hd
  · have hdiv : 8 * r.sig / 2 ^ (fmt.M + 3) = 1 := by
      rw [Nat.div_eq_iff (by positivity)]
      simp only [pow_add] at hlo hhi' ⊢
      omega
    rw [jam_eq, hdiv]
    cases decide (8 * r.sig % 2 ^ (fmt.M + 3) ≠ 0) <;> rfl
  · have hpos : 8 * r.sig ≠ 0 := by have := Nat.two_pow_pos fmt.M; omega
    rw [jam_saturated hhi' (by omega), decide_eq_true hpos]
    rfl

/-- At the distances of the shortcut R87 subtracts one from the minuend's lowest extra bit. -/
theorem alignedDifference_far (hr : r.Normalised fmt) (hd : r.e + (fmt.M + 3) ≤ l.e) :
    alignedDifference l r = 8 * l.sig - 1 := by
  rw [alignedDifference_eq, jam_far hr (by omega)]

/-- LEFT_NORMALIZE of a value whose leading one is `z` places below `P`. -/
theorem leftNormalize_of_bounds {D P z : Nat} (be : Int) (hz : z ≤ P) (hlo : 2 ^ (P - z) ≤ D)
    (hhi : D < 2 ^ (P - z + 1)) : leftNormalize D be P = (D * 2 ^ z, be - z) := by
  have hmsb : msb D = P - z := (Nat.log2_eq_iff (by have := Nat.two_pow_pos (P - z); omega)).mpr ⟨hlo, hhi⟩
  rw [leftNormalize, hmsb, Nat.sub_sub_self hz, Nat.shiftLeft_eq]

/-- One or two units of the third extra bit below a significand `n`: the significand before it, half-bit and
sticky-bit set. -/
theorem extraBits_below {n k : Nat} (hn : 0 < n) (hk0 : 0 < k) (hk : k ≤ 2) :
    (8 * n - k) >>> 3 = n - 1 ∧ (8 * n - k).testBit 2 = true ∧ (8 * n - k) % 4 ≠ 0 := by
  rw [Nat.shiftRight_eq_div_pow, testBit_eq_true_iff]
  omega

/-- R88: a power-of-two minuend loses its leading place and is shifted back by one, any other keeps it. -/
theorem shortcutIntermediate_eq_subIntermediate (hl : l.Normalised fmt) (hr : r.Normalised fmt)
    (hd : r.e + (fmt.M + 3) ≤ l.e) : shortcutIntermediate fmt l = subIntermediate fmt l r := by
  obtain ⟨hlo, hhi⟩ := hl
  have hpos := Nat.two_pow_pos fmt.M
  unfold shortcutIntermediate subIntermediate
  rw [alignedDifference_far hr hd]
  split
  case isTrue hsig =>
    have hnorm : leftNormalize (8 * l.sig - 1) (l.e + fmt.bias) (fmt.M + 3) =
        (8 * 2 ^ (fmt.M + 1) - 2, l.e + fmt.bias - 1) := by
      rw [leftNormalize_of_bounds (z := 1) _ (by omega), Prod.mk.injEq]
      · rw [pow_succ]; omega
      · rw [show fmt.M + 3 - 1 = fmt.M + 2 by omega, pow_add]; omega
      · rw [show fmt.M + 3 - 1 + 1 = fmt.M + 3 by omega, pow_add]; omega
    obtain ⟨hm, hh, hst⟩ := extraBits_below (n := 2 ^ (fmt.M + 1)) (k := 2) (by positivity) two_pos le_rfl
    simp only [hnorm, hm, hh, decide_eq_true hst]
  case isFalse hsig =>
    have hnorm : leftNormalize (8 * l.sig - 1) (l.e + fmt.bias) (fmt.M + 3) =
        (8 * l.sig - 1, l.e + fmt.bias) := by
      rw [leftNormalize_of_bounds (z := 0) _ (Nat.zero_le _), Prod.mk.injEq]
      · omega
      · rw [Nat.sub_zero, pow_add]; omega
      · rw [Nat.sub_zero, pow_succ, pow_add]; rw [pow_succ] at hhi; omega
    obtain ⟨hm, hh, hst⟩ := extraBits_below (n := l.sig) (k := 1) (by omega) one_pos one_le_two
    simp only [hnorm, hm, hh, decide_eq_true hst]

end

section
variable {fmt : Format} {a b : Word} (rm : RoundingMode)

/-! ### The rows of R82 -/

theorem fadd_of_nan (h : classify fmt a = .nan ∨ classify fmt b = .nan) :
    fadd fmt rm a b = makeNan fmt := by
  rcases h with ha | hb
  · simp only [fadd, ha]
  · cases ha : classify fmt a <;> simp only [fadd, ha, hb]

theorem fadd_of_infinities (ha : classify fmt a = .infinity) (hb : classify fmt b = .infinity) :
    fadd fmt rm a b =
      if signBit fmt a ≠ signBit fmt b then makeNan fmt else makeInf fmt (signBit fmt a) := by
  simp only [fadd, ha, hb]

theorem fadd_of_infinity_left (ha : classify fmt a = .infinity) (hnan : classify fmt b ≠ .nan)
    (hinf : classify fmt b ≠ .infinity) : fadd fmt rm a b = makeInf fmt (signBit fmt a) := by
  cases hb : classify fmt b with
  | nan => exact absurd hb hnan
  | infinity => exact absurd hb hinf
  | zero | subnormal | normal => simp only [fadd, ha, hb]

theorem fadd_of_infinity_right (hb : classify fmt b = .infinity) (hnan : classify fmt a ≠ .nan)
    (hinf : classify fmt a ≠ .infinity) : fadd fmt rm a b = makeInf fmt (signBit fmt b) := by
  cases ha : classify fmt a with
  | nan => exact absurd ha hnan
  | infinity => exact absurd ha hinf
  | zero | subnormal | normal => simp only [fadd, ha, hb]

theorem fadd_of_zeros (ha : classify fmt a = .zero) (hb : classify fmt b = .zero) :
    fadd fmt rm a b =
      if signBit fmt a = signBit fmt b then makeZero fmt (signBit fmt a)
      else makeZero fmt (zeroSumSign rm) := by
  simp only [fadd, ha, hb]

theorem fadd_of_zero_left (ha : classify fmt a = .zero) (hb : isFiniteNonzero (classify fmt b) = true) :
    fadd fmt rm a b = b := by
  rcases classify_cases_of_finite hb with hb | hb <;> simp only [fadd, ha, hb]

theorem fadd_of_zero_right (hb : classify fmt b = .zero) (ha : isFiniteNonzero (classify fmt a) = true) :
    fadd fmt rm a b = a := by
  rcases classify_cases_of_finite ha with ha | ha <;> simp only [fadd, ha, hb]

/-- R82's table: what the rows above say of any property of the answer. -/
theorem fadd_table (gives : Word → Prop) (hgives : ∀ w, fadd fmt rm a b = w → gives w) :
    (classify fmt a = .nan ∨ classify fmt b = .nan → gives (makeNan fmt)) ∧
    (classify fmt a = .infinity ∧ classify fmt b = .infinity ∧ signBit fmt a ≠ signBit fmt b →
      gives (makeNan fmt)) ∧
    (classify fmt a = .infinity ∧ classify fmt b = .infinity ∧ signBit fmt a = signBit fmt b →
      gives (makeInf fmt (signBit fmt a))) ∧
    (classify fmt a = .infinity ∧ classify fmt b ≠ .nan ∧ classify fmt b ≠ .infinity →
      gives (makeInf fmt (signBit fmt a))) ∧
    (classify fmt b = .infinity ∧ classify fmt a ≠ .nan ∧ classify fmt a ≠ .infinity →
      gives (makeInf fmt (signBit fmt b))) ∧
    (classify fmt a = .zero ∧ classify fmt b = .zero ∧ signBit fmt a = signBit fmt b →
      gives (makeZero fmt (signBit fmt a))) ∧
    (classify fmt a = .zero ∧ classify fmt b = .zero ∧ signBit fmt a ≠ signBit fmt b →
      gives (makeZero fmt (zeroSumSign rm))) ∧
    (classify fmt a = .zero ∧ isFiniteNonzero (classify fmt b) = true → gives b) ∧
    (classify fmt b = .zero ∧ isFiniteNonzero (classify fmt a) = true → gives a) :=
  ⟨fun h => hgives _ (fadd_of_nan rm h),
    fun ⟨ha, hb, hs⟩ => hgives _ ((fadd_of_infinities rm ha hb).trans (if_pos hs)),
    fun ⟨ha, hb, hs⟩ => hgives _ ((fadd_of_infinities rm ha hb).trans (if_neg (not_not.mpr hs))),
    fun ⟨ha, hnan, hinf⟩ => hgives _ (fadd_of_infinity_left rm ha hnan hinf),
    fun ⟨hb, hnan, hinf⟩ => hgives _ (fadd_of_infinity_right rm hb hnan hinf),
    fun ⟨ha, hb, hs⟩ => hgives _ ((fadd_of_zeros rm ha hb).trans (if_pos hs)),
    fun ⟨ha, hb, hs⟩ => hgives _ ((fadd_of_zeros rm ha hb).trans (if_neg hs)),
    fun ⟨ha, hb⟩ => hgives _ (fadd_of_zero_left rm ha hb),
    fun ⟨hb, ha⟩ => hgives _ (fadd_of_zero_right rm hb ha)⟩

/-! ### Exact cancellation (R86) -/

theorem signFactor_ne_zero (s : Bool) : signFactor s ≠ 0 := by cases s <;> norm_num [signFactor]

/-- Finite nonzero words whose values cancel have different signs and one magnitude. -/
theorem signs_ne_and_magnitude_eq_of_sum_zero (ha : isFiniteNonzero (classify fmt a) = true)
    (hb : isFiniteNonzero (classify fmt b) = true) (hsum : rationalValue fmt a + rationalValue fmt b = 0) :
    signBit fmt a ≠ signBit fmt b ∧ magnitude fmt a = magnitude fmt b := by
  rw [rationalValue, rationalValue] at hsum
  have hne : signBit fmt a ≠ signBit fmt b := by
    intro heq
    rw [heq, ← mul_add] at hsum
    exact mul_ne_zero (signFactor_ne_zero _) (add_pos (magnitude_pos ha) (magnitude_pos hb)).ne' hsum
  rw [signFactor_of_ne hne, neg_mul, ← sub_eq_add_neg, sub_eq_zero] at hsum
  exact ⟨hne, mul_left_cancel₀ (signFactor_ne_zero _) hsum⟩

theorem fadd_of_sum_zero (ha : isFiniteNonzero (classify fmt a) = true)
    (hb : isFiniteNonzero (classify fmt b) = true) (hsum : rationalValue fmt a + rationalValue fmt b = 0) :
    fadd fmt rm a b = makeZero fmt (zeroSumSign rm) := by
  obtain ⟨hsign, hmag⟩ := signs_ne_and_magnitude_eq_of_sum_zero ha hb hsum
  obtain ⟨hx, hmagX, -⟩ := unpack_spec ha
  obtain ⟨hy, hmagY, -⟩ := unpack_spec hb
  rw [← unpack_s, ← unpack_s] at hsign
  rw [fadd_of_finite rm ha hb, addKernel]
  exact (if_neg hsign).trans (magSub_of_magnitude_eq rm hx hy (by rw [hmagX, hmagY, hmag]))

/-- The zero of R86, by mode. -/
theorem makeZero_zeroSumSign (fmt : Format) :
    makeZero fmt (zeroSumSign rm) =
      if rm = .towardNegative then makeZero fmt true else makeZero fmt false := by
  cases rm <;> rfl

theorem fsub_of_values_eq (ha : isFiniteNonzero (classify fmt a) = true)
    (hb : isFiniteNonzero (classify fmt b) = true) (heq : rationalValue fmt a = rationalValue fmt b) :
    fsub fmt rm a b = makeZero fmt (zeroSumSign rm) := by
  refine fadd_of_sum_zero rm ha (by rwa [classify_flipSign]) ?_
  rw [rationalValue_flipSign, heq, add_neg_cancel]

/-! ### Sums in the subnormal range (R89) -/

/-- Every word's magnitude is a whole number of the smallest quanta. -/
theorem magnitude_eq_natCast_mul_quantum (fmt : Format) (w : Word) :
    ∃ n : ℕ, magnitude fmt w = n * quantum fmt (1 - fmt.bias) := by
  rcases Nat.eq_zero_or_pos (fields fmt w).f with hf | hf
  · exact ⟨_, magnitude_of_f_eq_zero hf⟩
  · have hq := quantum_add fmt (1 - fmt.bias) ((fields fmt w).f - 1)
    rw [show (1 - fmt.bias + ((fields fmt w).f - 1 : ℕ) : ℤ) = (fields fmt w).f - fmt.bias by omega] at hq
    refine ⟨(2 ^ fmt.M + (fields fmt w).t) * 2 ^ ((fields fmt w).f - 1), ?_⟩
    rw [magnitude_of_f_pos hf, hq]
    push_cast
    ring

theorem rationalValue_eq_intCast_mul_quantum (fmt : Format) (w : Word) :
    ∃ z : ℤ, rationalValue fmt w = z * quantum fmt (1 - fmt.bias) := by
  obtain ⟨n, hn⟩ := magnitude_eq_natCast_mul_quantum fmt w
  rw [rationalValue, hn]
  cases signBit fmt w with
  | false => exact ⟨n, by simp [signFactor]⟩
  | true => exact ⟨-n, by simp [signFactor]⟩

/-- A sum below the smallest normal is fewer than `2^M` of the smallest quanta. -/
theorem abs_sum_eq_natCast_mul_quantum
    (hsmall : |rationalValue fmt a + rationalValue fmt b| < 2 ^ fmt.emin) :
    ∃ n < 2 ^ fmt.M, |rationalValue fmt a + rationalValue fmt b| = (n : ℕ) * quantum fmt (1 - fmt.bias) := by
  obtain ⟨i, hi⟩ := rationalValue_eq_intCast_mul_quantum fmt a
  obtain ⟨j, hj⟩ := rationalValue_eq_intCast_mul_quantum fmt b
  have hq := quantum_pos fmt (1 - fmt.bias)
  have hsum : |rationalValue fmt a + rationalValue fmt b| =
      ((i + j).natAbs : ℕ) * quantum fmt (1 - fmt.bias) := by
    rw [hi, hj, ← add_mul, abs_mul, abs_of_pos hq, Nat.cast_natAbs, Int.cast_abs, Int.cast_add]
  refine ⟨_, ?_, hsum⟩
  rw [hsum, Format.emin, ← two_pow_mul_quantum, mul_lt_mul_iff_left₀ hq] at hsmall
  exact_mod_cast hsmall

theorem classify_pack_subnormal (fmt : Format) (s : Bool) {t : Nat} (ht0 : t ≠ 0) (ht : t < 2 ^ fmt.M) :
    classify fmt (pack fmt s 0 t) = .subnormal := by
  simp [classify, fields_pack s (Nat.zero_le _) ht, ht0]

theorem rationalValue_pack_subnormal (fmt : Format) (s : Bool) {t : Nat} (ht0 : t ≠ 0) (ht : t < 2 ^ fmt.M) :
    rationalValue fmt (pack fmt s 0 t) = signFactor s * (t * quantum fmt (1 - fmt.bias)) := by
  have hvalue := numericValue_pack_subnormal fmt s t ht0 ht
  rw [numericValue, classify_pack_subnormal fmt s ht0 ht] at hvalue
  exact NumericValue.finite.inj hvalue

theorem signFactor_mul_abs (x : ℚ) : signFactor (decide (x < 0)) * |x| = x := by
  rcases lt_or_ge x 0 with hx | hx
  · rw [decide_eq_true hx, abs_of_neg hx]
    simp [signFactor]
  · rw [decide_eq_false hx.not_gt, abs_of_nonneg hx]
    simp [signFactor]

end

section
variable (fmt : Format) (s : State)

/-! ### Operand ports and the flipped word (R81) -/

@[simp] theorem classify_operandA : classify fmt (operandA fmt s) = classify fmt s.a := classify_formatWord ..
@[simp] theorem classify_operandB : classify fmt (operandB fmt s) = classify fmt s.b := classify_formatWord ..

@[simp] theorem signBit_flipSign (b : Word) : signBit fmt (flipSign fmt b) = !signBit fmt b := by
  simp [signBit, fields_flipSign]

theorem addKernel_operands (rm : RoundingMode) :
    addKernel fmt rm (operandA fmt s) (operandB fmt s) = addKernel fmt rm s.a s.b := by
  simp only [addKernel, operandA, operandB, unpack_formatWord]

theorem formatWord_of_lt {w : Word} (hw : w.toNat < 2 ^ fmt.W) : formatWord fmt w = w :=
  BitVec.eq_of_toNat_eq ((formatWord_toNat fmt w).trans (Nat.mod_eq_of_lt hw))

/-- The flip lies within the format word, and is its fields with the sign inverted. -/
theorem flipSign_formatWord (b : Word) :
    flipSign fmt (formatWord fmt b) = pack fmt (!signBit fmt b) (fields fmt b).f (fields fmt b).t := by
  rw [← formatWord_of_lt fmt (flipSign_lt fmt (formatWord_lt fmt b)), ← packFields_fields, fields_flipSign,
    fields_formatWord]
  rfl

/-- Flipping the port's word and flipping its format word are one operand. -/
theorem formatWord_flipSign (b : Word) : formatWord fmt (flipSign fmt b) = flipSign fmt (formatWord fmt b) := by
  rw [flipSign_formatWord, ← packFields_fields, fields_flipSign]
  rfl

theorem fsub_operands_eq_fadd_flipped (rm : RoundingMode) :
    fsub fmt rm (operandA fmt s) (operandB fmt s) =
      fadd fmt rm (operandA fmt s) (operandB fmt { s with b := flipSign fmt s.b }) := by
  rw [fsub, operandB, operandB, formatWord_flipSign]

end

end Sys2Proof.Machine

namespace Sys2Proof.Proofs.AddSubtract

open Sys2Proof.Machine

/-- Settles O35: normalised magnitudes compare lexicographically, and FINISH keeps the first operand's sign. -/
theorem orderPutsTheLargerMagnitudeFirst : Obligations.OrderPutsTheLargerMagnitudeFirst := by
  intro fmt x y hx hy
  exact ⟨order_of_magnitude_le hx hy, order_of_magnitude_lt hx hy, fun rm =>
    ⟨fun hlt => signBit_magSub_of_order_lt rm hx hy (order_of_magnitude_le hx hy hlt.le) hlt,
      fun hlt => signBit_magSub_of_order_lt rm hy hx (order_of_magnitude_lt hx hy hlt) hlt⟩⟩

/-- Settles O40: from `M + 3` on R87 subtracts one extra bit, which is what the shortcut writes down; the
half words of R88 are its counterexample one place nearer. -/
theorem shortcutAgreesFromDistanceMPlusThree : Obligations.ShortcutAgreesFromDistanceMPlusThree :=
  ⟨fun _ _ _ hl hr hd => shortcutIntermediate_eq_subIntermediate hl hr hd, by decide, by decide⟩

/-- Settles O49: each instruction drives `fadd` of the operand ports, so its table is R82's. -/
theorem addResolvesSpecialOperands : Obligations.AddResolvesSpecialOperands := by
  intro rm s out
  have hout : ∀ fmt i,
      exec i s = .next (driveOutputs (fadd fmt rm (operandA fmt s) (operandB fmt s)) 0 s) → out fmt i := by
    intro fmt i hexec
    have hgives (w : Word) (h : fadd fmt rm (operandA fmt s) (operandB fmt s) = w) :
        exec i s = .next { s with res := w, inv := 0, settled := true } :=
      hexec.trans (next_driveOutputs s h)
    have hkernel (h : BothFinite fmt s) :
        exec i s = .next { s with res := addKernel fmt rm s.a s.b, inv := 0, settled := true } := by
      obtain ⟨ha, hb⟩ := BothFinite.operands h
      exact hgives _ ((fadd_of_finite rm ha hb).trans (addKernel_operands fmt s rm))
    have htable := fadd_table rm _ hgives
    simp only [classify_operandA, classify_operandB, signBit_operandA, signBit_operandB] at htable
    obtain ⟨hnan, hopposed, hinfs, hinfA, hinfB, hzeros, hcancel, hzeroA, hzeroB⟩ := htable
    exact ⟨hnan, hopposed, hinfs, hinfA, hinfB, hzeros, hcancel, hzeroA, hzeroB, hkernel⟩
  exact ⟨hout .half (.faddH rm) rfl, hout .single (.faddS rm) rfl⟩

/-- Settles O52: the flipped port gives the flipped format word, and driving the outputs leaves `b` alone. -/
theorem subtractIsAddOfTheFlippedWord : Obligations.SubtractIsAddOfTheFlippedWord := by
  intro rm s t
  have hflip : ∀ fmt,
      (.next (driveOutputs (fadd fmt rm (operandA fmt s) (operandB fmt { s with b := flipSign fmt s.b })) 0
        { s with b := flipSign fmt s.b }) : Host.Outcome State Fault Refusal) = .next t →
      (.next (driveOutputs (fsub fmt rm (operandA fmt s) (operandB fmt s)) 0 s) :
        Host.Outcome State Fault Refusal) = .next { t with b := s.b } := by
    intro fmt h
    obtain rfl := Host.Outcome.next.inj h
    exact next_driveOutputs s (fsub_operands_eq_fadd_flipped fmt s rm)
  exact ⟨hflip .half, hflip .single⟩

/-- Settles O53: a subtract drives `fadd` of the flipped word, of `b`'s class and the other sign, so its
table is R82's on those. -/
theorem subtractResolvesSpecialOperands : Obligations.SubtractResolvesSpecialOperands := by
  intro rm s out
  have hout : ∀ fmt i,
      exec i s = .next (driveOutputs (fsub fmt rm (operandA fmt s) (operandB fmt s)) 0 s) → out fmt i := by
    intro fmt i hexec
    have hgives (w : Word) (h : fadd fmt rm (operandA fmt s) (flipSign fmt (operandB fmt s)) = w) :
        exec i s = .next { s with res := w, inv := 0, settled := true } :=
      hexec.trans (next_driveOutputs s h)
    have hflipped : flipSign fmt (operandB fmt s) =
        pack fmt (!signBit fmt s.b) (fields fmt s.b).f (fields fmt s.b).t := flipSign_formatWord fmt s.b
    have htable := fadd_table rm _ hgives
    simp only [classify_operandA, signBit_operandA, classify_flipSign, classify_operandB, signBit_flipSign,
      signBit_operandB, Bool.eq_not, ne_eq, not_not] at htable
    rw [hflipped] at htable
    exact htable
  exact ⟨hout .half (.fsubH rm) rfl, hout .single (.fsubS rm) rfl⟩

/-- Settles O51: operands that cancel have equal magnitudes and different effective signs, so MAG_SUB
answers the zero of R86. -/
theorem exactCancellationGivesSignedZero : Obligations.ExactCancellationGivesSignedZero := by
  intro rm s zero gives
  have hadd : ∀ fmt, BothFinite fmt s → rationalValue fmt s.a + rationalValue fmt s.b = 0 →
      fadd fmt rm (operandA fmt s) (operandB fmt s) = zero fmt := by
    intro fmt h hsum
    obtain ⟨ha, hb⟩ := BothFinite.operands h
    rw [← rationalValue_operandA, ← rationalValue_operandB] at hsum
    exact (fadd_of_sum_zero rm ha hb hsum).trans (makeZero_zeroSumSign rm fmt)
  have hsub : ∀ fmt, BothFinite fmt s → rationalValue fmt s.a = rationalValue fmt s.b →
      fsub fmt rm (operandA fmt s) (operandB fmt s) = zero fmt := by
    intro fmt h heq
    obtain ⟨ha, hb⟩ := BothFinite.operands h
    rw [← rationalValue_operandA, ← rationalValue_operandB] at heq
    exact (fsub_of_values_eq rm ha hb heq).trans (makeZero_zeroSumSign rm fmt)
  exact ⟨fun h hsum => next_driveOutputs s (hadd .half h hsum),
    fun h hsum => next_driveOutputs s (hadd .single h hsum),
    fun h heq => next_driveOutputs s (hsub .half h heq),
    fun h heq => next_driveOutputs s (hsub .single h heq)⟩

/-- Settles O55: the sum is a whole number of subnormal quanta, which rounding packs as it is. -/
theorem subnormalSumsAreExact : Obligations.SubnormalSumsAreExact := by
  intro fmt rm a b ha hb hsum hsmall
  obtain ⟨n, hn, habs⟩ := abs_sum_eq_natCast_mul_quantum hsmall
  have hn0 : n ≠ 0 := by
    rintro rfl
    rw [Nat.cast_zero, zero_mul, abs_eq_zero] at habs
    exact hsum habs
  rw [fadd_eq_roundExact rm ha hb hsum, habs, roundExact_subnormal _ rm hn0 hn]
  refine ⟨?_, classify_pack_subnormal fmt _ hn0 hn⟩
  rw [rationalValue_pack_subnormal fmt _ hn0 hn, ← habs, signFactor_mul_abs]

end Sys2Proof.Proofs.AddSubtract
end

section
/-!
SUPPORT. Divide (43_divide.md): R94's table of special operands as an equation per row of `fdiv`.
-/

namespace Sys2Proof.Machine

/-- FDIV reads the format words of its operands only (20_memory.md R29). -/
@[simp] theorem fdiv_formatWord (fmt : Format) (rm : RoundingMode) (a b : Word) :
    fdiv fmt rm (formatWord fmt a) (formatWord fmt b) = fdiv fmt rm a b := by
  simp only [fdiv, divKernel, classify_formatWord, signBit_formatWord, unpack_formatWord]

section
variable {fmt : Format} (rm : RoundingMode) {a b : Word}

/-! ### The rows of R94 -/

theorem fdiv_of_nan (h : classify fmt a = .nan ∨ classify fmt b = .nan) :
    fdiv fmt rm a b = makeNan fmt := by
  rcases h with ha | hb
  · simp only [fdiv, ha]
  · cases ha : classify fmt a <;> simp only [fdiv, ha, hb]

/-- The two invalid quotients, 0/0 and ∞/∞. -/
theorem fdiv_of_invalid (h : (classify fmt a = .zero ∧ classify fmt b = .zero) ∨
    (classify fmt a = .infinity ∧ classify fmt b = .infinity)) : fdiv fmt rm a b = makeNan fmt := by
  rcases h with ⟨ha, hb⟩ | ⟨ha, hb⟩ <;> simp only [fdiv, ha, hb]

theorem fdiv_of_zero_right (hb : classify fmt b = .zero) (hnan : classify fmt a ≠ .nan)
    (hzero : classify fmt a ≠ .zero) :
    fdiv fmt rm a b = makeInf fmt (signBit fmt a != signBit fmt b) := by
  cases ha : classify fmt a with
  | nan => exact absurd ha hnan
  | zero => exact absurd ha hzero
  | subnormal | normal | infinity => simp only [fdiv, ha, hb]

theorem fdiv_of_infinity_left (ha : classify fmt a = .infinity) (hnan : classify fmt b ≠ .nan)
    (hinf : classify fmt b ≠ .infinity) :
    fdiv fmt rm a b = makeInf fmt (signBit fmt a != signBit fmt b) := by
  cases hb : classify fmt b with
  | nan => exact absurd hb hnan
  | infinity => exact absurd hb hinf
  | zero | subnormal | normal => simp only [fdiv, ha, hb]

theorem fdiv_of_zero_left (ha : classify fmt a = .zero) (hnan : classify fmt b ≠ .nan)
    (hzero : classify fmt b ≠ .zero) :
    fdiv fmt rm a b = makeZero fmt (signBit fmt a != signBit fmt b) := by
  cases hb : classify fmt b with
  | nan => exact absurd hb hnan
  | zero => exact absurd hb hzero
  | subnormal | normal | infinity => simp only [fdiv, ha, hb]

theorem fdiv_of_infinity_right (hb : classify fmt b = .infinity) (hnan : classify fmt a ≠ .nan)
    (hinf : classify fmt a ≠ .infinity) :
    fdiv fmt rm a b = makeZero fmt (signBit fmt a != signBit fmt b) := by
  cases ha : classify fmt a with
  | nan => exact absurd ha hnan
  | infinity => exact absurd ha hinf
  | zero | subnormal | normal => simp only [fdiv, ha, hb]

end

end Sys2Proof.Machine

namespace Sys2Proof.Proofs.Divide

open Sys2Proof.Machine

/-- Settles O56: each instruction drives `fdiv` of the operand ports, and the clauses are the rows of R94. -/
theorem divideResolvesSpecialOperands : Obligations.DivideResolvesSpecialOperands := by
  intro rm s out
  have hout : ∀ fmt i,
      exec i s = .next (driveOutputs (fdiv fmt rm (operandA fmt s) (operandB fmt s)) 0 s) → out fmt i := by
    intro fmt i hexec
    have hgives {w : Word} (h : fdiv fmt rm s.a s.b = w) :
        exec i s = .next { s with res := w, inv := 0, settled := true } :=
      hexec.trans (next_driveOutputs s ((fdiv_formatWord ..).trans h))
    exact ⟨fun h => hgives (fdiv_of_nan rm h),
      fun h => hgives (fdiv_of_invalid rm h),
      fun ⟨hb, hnan, hzero⟩ => hgives (fdiv_of_zero_right rm hb hnan hzero),
      fun ⟨ha, hnan, hinf⟩ => hgives (fdiv_of_infinity_left rm ha hnan hinf),
      fun ⟨ha, hnan, hzero⟩ => hgives (fdiv_of_zero_left rm ha hnan hzero),
      fun ⟨hb, hnan, hinf⟩ => hgives (fdiv_of_infinity_right rm hb hnan hinf),
      fun ⟨ha, hb⟩ => hgives (fdiv_of_finite rm ha hb)⟩
  exact ⟨hout .half (.fdivH rm) rfl, hout .single (.fdivS rm) rfl⟩

end Sys2Proof.Proofs.Divide
end

section
/-!
SUPPORT. Pass-through and reserved codes (44_pass_through.md R99 to R101): the written control words are
the encodings of their rows, and no row of these rounds: each drives an operand word or 0 as it stands.
-/

namespace Sys2Proof

/-- A half word is the low half of its port, zero-extended (20_memory.md R29). -/
theorem formatWord_half (w : Word) : formatWord .half w = (w.extractLsb' 0 16).zeroExtend 32 := by
  apply BitVec.eq_of_toNat_eq
  have hlow : w.toNat % 2 ^ 16 < 2 ^ 32 := (Nat.mod_lt _ (Nat.two_pow_pos 16)).trans (by decide)
  rw [formatWord_toNat, BitVec.toNat_setWidth, BitVec.extractLsb'_toNat, Nat.shiftRight_zero,
    Nat.mod_eq_of_lt hlow]
  rfl

end Sys2Proof

namespace Sys2Proof.Machine

/-- A step with a reserved op has the outcome of every reserved code, whatever fmt, rm and the operands. -/
theorem step_of_reserved {s : State} (h : 5 ≤ s.op.toNat) : step s = .next (reservedOutcome s) := by
  rw [step_eq, fpcore_reserved _ _ _ _ h]
  rfl

end Sys2Proof.Machine

namespace Sys2Proof.Proofs.PassThrough

open Sys2Proof.Machine

/-- Settles O23: the pattern is the row's encoding, and the word driven is the half word of port `a`. -/
theorem fpassHReturnsTheHalfWord : Obligations.FpassHReturnsTheHalfWord :=
  ⟨fun x => decode_encode (.fpassH x), fun _ s => next_driveOutputs s (formatWord_half s.a)⟩

/-- Settles O24: the pattern is the row's encoding, and a single word fills its port. -/
theorem fpassSReturnsTheWord : Obligations.FpassSReturnsTheWord :=
  ⟨fun x => decode_encode (.fpassS x), fun _ s => next_driveOutputs s (formatWord_single s.a)⟩

/-- Settles O25: both rows are `reservedOutcome` by definition, and a step with a reserved op is too. -/
theorem reservedCodesDriveZeroAndInv : Obligations.ReservedCodesDriveZeroAndInv :=
  ⟨fun _ _ => rfl, fun _ _ => rfl, fun s hop => step_of_reserved ((five_le_toNat_iff s.op).mpr hop)⟩

end Sys2Proof.Proofs.PassThrough
end

section
/-!
SUPPORT. Exceptions that show in the result word (60_exceptions.md R103, R105): which answers are a NaN, as
an equivalence per operation, read off the operation's table of special operands row by row.
-/

namespace Sys2Proof.Machine

section
variable (fmt : Format) (rm : RoundingMode) (s : Bool) (a b : Word)

/-! ### Answers that are no NaN -/

theorem classify_makeZero_ne_nan : classify fmt (makeZero fmt s) ≠ .nan :=
  classify_pack_ne_nan fmt s fmt.emaxf_pos

theorem classify_finish_ne_nan (i : Intermediate) : classify fmt (finish fmt i rm) ≠ .nan :=
  (Proofs.Datapath.finishKeepsTheSign fmt i rm).2

/-- ADD_KERNEL answers a finished word, or the zero of an exact cancellation. -/
theorem classify_addKernel_ne_nan : classify fmt (addKernel fmt rm a b) ≠ .nan := by
  unfold addKernel
  dsimp only
  split
  · exact classify_finish_ne_nan fmt rm _
  · unfold magSub
    dsimp only
    split
    · exact classify_makeZero_ne_nan fmt _
    · exact classify_finish_ne_nan fmt rm _

/-! ### Invalid operations (R105) -/

/-- The rows of R76 that answer a NaN are the invalid ones. -/
theorem classify_fmul_eq_nan_iff :
    classify fmt (fmul fmt rm a b) = .nan ↔ mulInvalid (classify fmt a) (classify fmt b) = true := by
  unfold fmul
  dsimp only
  split
  case h_1 | h_2 | h_3 | h_4 => exact iff_of_true (classify_makeNan fmt) (by simp_all [mulInvalid])
  case h_5 | h_6 => exact iff_of_false (classify_makeInf_ne_nan fmt _) (by simp_all [mulInvalid])
  case h_7 | h_8 => exact iff_of_false (classify_makeZero_ne_nan fmt _) (by simp_all [mulInvalid])
  case h_9 => exact iff_of_false (classify_finish_ne_nan fmt rm _) (by simp_all [mulInvalid])

/-- The rows of R94 that answer a NaN are the invalid ones. -/
theorem classify_fdiv_eq_nan_iff :
    classify fmt (fdiv fmt rm a b) = .nan ↔ divInvalid (classify fmt a) (classify fmt b) = true := by
  unfold fdiv
  dsimp only
  split
  case h_1 | h_2 | h_3 | h_4 => exact iff_of_true (classify_makeNan fmt) (by simp_all [divInvalid])
  case h_5 | h_6 => exact iff_of_false (classify_makeInf_ne_nan fmt _) (by simp_all [divInvalid])
  case h_7 | h_8 => exact iff_of_false (classify_makeZero_ne_nan fmt _) (by simp_all [divInvalid])
  case h_9 => exact iff_of_false (classify_finish_ne_nan fmt rm _) (by simp_all [divInvalid])

/-- The rows of R82 that answer a NaN are the invalid ones; an operand beside a zero is answered as it is,
and is no NaN. -/
theorem classify_fadd_eq_nan_iff :
    classify fmt (fadd fmt rm a b) = .nan ↔
      addInvalid (classify fmt a) (classify fmt b) (signBit fmt a) (signBit fmt b) = true := by
  unfold fadd
  dsimp only
  split
  case h_1 | h_2 => exact iff_of_true (classify_makeNan fmt) (by simp_all [addInvalid])
  case h_3 =>
    split
    · exact iff_of_true (classify_makeNan fmt) (by simp_all [addInvalid])
    · exact iff_of_false (classify_makeInf_ne_nan fmt _) (by simp_all [addInvalid])
  case h_4 | h_5 => exact iff_of_false (classify_makeInf_ne_nan fmt _) (by simp_all [addInvalid])
  case h_6 => split <;> exact iff_of_false (classify_makeZero_ne_nan fmt _) (by simp_all [addInvalid])
  case h_7 _ hnan _ _ | h_8 _ hnan _ _ => exact iff_of_false hnan (by simp_all [addInvalid])
  case h_9 => exact iff_of_false (classify_addKernel_ne_nan fmt rm a b) (by simp_all [addInvalid])

/-- A subtract adds the flipped word, of `b`'s class and the other sign (R81). -/
theorem classify_fsub_eq_nan_iff :
    classify fmt (fsub fmt rm a b) = .nan ↔
      addInvalid (classify fmt a) (classify fmt b) (signBit fmt a) (!signBit fmt b) = true := by
  rw [fsub, classify_fadd_eq_nan_iff, classify_flipSign, signBit_flipSign]

end

/-! ### Division by zero (R105) -/

theorem fdiv_of_divByZero {fmt : Format} (rm : RoundingMode) {a b : Word}
    (h : divByZero (classify fmt a) (classify fmt b) = true) :
    fdiv fmt rm a b = makeInf fmt (signBit fmt a != signBit fmt b) := by
  obtain ⟨ha, hb⟩ := Bool.and_eq_true_iff.mp h
  have hzero : classify fmt b = .zero := beq_iff_eq.mp hb
  rcases classify_cases_of_finite ha with ha | ha <;>
    exact fdiv_of_zero_right rm hzero (by simp [ha]) (by simp [ha])

end Sys2Proof.Machine

namespace Sys2Proof.Proofs.Exceptions

open Sys2Proof.Machine

/-- Settles O12: a step drives the two outputs, and so has a next state. -/
theorem everyStepHasANextState : Obligations.EveryStepHasANextState := by
  intro s
  obtain ⟨r, v, hstep⟩ := step_drives s
  exact ⟨driveOutputs r v s, hstep⟩

/-- Settles O59: an equivalence per operation, and the row of R94 for a zero divisor. -/
theorem invalidAndDivideByZeroShowInTheResult : Obligations.InvalidAndDivideByZeroShowInTheResult :=
  fun fmt rm a b => ⟨classify_fmul_eq_nan_iff fmt rm a b, classify_fadd_eq_nan_iff fmt rm a b,
    classify_fsub_eq_nan_iff fmt rm a b, classify_fdiv_eq_nan_iff fmt rm a b, fdiv_of_divByZero rm⟩

end Sys2Proof.Proofs.Exceptions
end

section
/-!
SUPPORT. Reset and hazards (70_reset_and_hazards.md R115, R116, R119): when presenting inputs ends the
validity of the outputs, and that outputs which are not valid meet both invariants.
-/

namespace Sys2Proof.Machine

section
variable {op : BitVec 3} {fmt : BitVec 1} {rm : BitVec 2} {a b : Word} {s : State}

/-- The new input ports are the presented values, so a state left as it was holds them already. -/
theorem State.present_eq_self_iff :
    s.present op fmt rm a b = s ↔ op = s.op ∧ fmt = s.fmt ∧ rm = s.rm ∧ a = s.a ∧ b = s.b := by
  constructor
  · intro hself
    rw [← hself]
    exact ⟨(s.present_op ..).symm, (s.present_fmt ..).symm, (s.present_rm ..).symm, (s.present_a ..).symm,
      (s.present_b ..).symm⟩
  · rintro ⟨rfl, rfl, rfl, rfl, rfl⟩
    exact s.present_self

/-- A change of any input ends the validity of the outputs (R119). -/
theorem State.present_settled_of_changed
    (hchange : ¬(op = s.op ∧ fmt = s.fmt ∧ rm = s.rm ∧ a = s.a ∧ b = s.b)) :
    (s.present op fmt rm a b).settled = false := by
  obtain ⟨-, hsame⟩ | ⟨hsettled, -⟩ := s.present_cases op fmt rm a b
  · exact absurd hsame hchange
  · exact hsettled

/-- Both invariants speak of valid outputs only. -/
theorem invariants_of_not_settled (h : s.settled = false) : OutputsValid s ∧ OutputsShaped s :=
  have hnot : ¬s.settled = true := ne_true_of_eq_false h
  ⟨fun hsettled => absurd hsettled hnot, fun hsettled => absurd hsettled hnot⟩

end

end Sys2Proof.Machine

namespace Sys2Proof.Proofs.ResetAndHazards

open Sys2Proof.Machine

/-- Settles O19: the step after a change drives the outputs and leaves the presented inputs as they are. -/
theorem outputsAreValidUntilAnInputChanges : Obligations.OutputsAreValidUntilAnInputChanges := by
  intro op fmt rm a b s
  refine ⟨State.present_eq_self_iff, State.present_settled_of_changed, ?_⟩
  obtain ⟨r, v, hstep⟩ := step_drives (s.present op fmt rm a b)
  exact ⟨_, hstep, driveOutputs_settled .., s.present_op .., s.present_fmt .., s.present_rm ..,
    s.present_a .., s.present_b ..⟩

/-- Settles O20: the outputs after power-up are not valid yet. -/
theorem resetMeetsTheInvariants : Obligations.ResetMeetsTheInvariants := by
  have hreset : State.reset.settled = false := rfl
  obtain ⟨hvalid, hshaped⟩ := invariants_of_not_settled hreset
  exact ⟨hvalid, hshaped, hreset⟩

/-- Settles O22: the state is left as it is, or its outputs are no longer valid. -/
theorem presentingInputsKeepsTheInvariants : Obligations.PresentingInputsKeepsTheInvariants := by
  intro op fmt rm a b s hinv
  obtain ⟨hself, -⟩ | ⟨hsettled, -⟩ := s.present_cases op fmt rm a b
  · rwa [hself]
  · exact invariants_of_not_settled hsettled

end Sys2Proof.Proofs.ResetAndHazards
end
